-- ==== Sys2Proof/Word.lean ====
section
/-! DEFINITION. The word types of the machine (00_scope.md R7, R10, R11): everything is unsigned. -/

namespace Sys2Proof

/-- A general register's, a timer's or a memory byte's contents (R7: 8 bits). -/
abbrev Byte := BitVec 8

/-- An instruction word, I, PC or a return address (R7: 16 bits). -/
abbrev Word := BitVec 16

/-- The field NNN: an unsigned 12-bit address (R71, R72). -/
abbrev Addr12 := BitVec 12

/-- A register number 0x0 to 0xF. Every 4-bit field names a register (R21, R72). -/
abbrev Reg := Fin 16

/-- VF, the register that is also the flag (R22). -/
abbrev vF : Reg := 15

/-- A key number 0x0 to 0xF (R37). -/
abbrev KeyIndex := Fin 16

/-- `zext_16(NNN)` of R11 and R72. -/
abbrev zext16 {n : Nat} (v : BitVec n) : Word := v.setWidth 16

end Sys2Proof
end

