-- ==== Sys2Proof/Syntax.lean ====
section
/-! DEFINITION. The 34 instructions of the opcode map (30_encoding.md R74), one constructor a row, in the table's order.
A register field is a `Reg`, NN a `Byte`, NNN an `Addr12`, and the row count N of DXYN a number (R72). -/

namespace Sys2Proof

inductive Instr where
  /-- `00E0` CLS (R170). -/
  | cls
  /-- `00EE` RET (R101). -/
  | ret
  /-- `1NNN` JP NNN (R102). -/
  | jpNNN (nnn : Addr12)
  /-- `2NNN` CALL NNN (R103). -/
  | callNNN (nnn : Addr12)
  /-- `3XNN` SE VX, NN (R104). -/
  | seVxNN (x : Reg) (nn : Byte)
  /-- `4XNN` SNE VX, NN (R105). -/
  | sneVxNN (x : Reg) (nn : Byte)
  /-- `5XY0` SE VX, VY (R106). -/
  | seVxVy (x y : Reg)
  /-- `6XNN` LD VX, NN (R120). -/
  | ldVxNN (x : Reg) (nn : Byte)
  /-- `7XNN` ADD VX, NN (R121). -/
  | addVxNN (x : Reg) (nn : Byte)
  /-- `8XY0` LD VX, VY (R122). -/
  | ldVxVy (x y : Reg)
  /-- `8XY1` OR VX, VY (R123). -/
  | orVxVy (x y : Reg)
  /-- `8XY2` AND VX, VY (R124). -/
  | andVxVy (x y : Reg)
  /-- `8XY3` XOR VX, VY (R125). -/
  | xorVxVy (x y : Reg)
  /-- `8XY4` ADD VX, VY (R126). -/
  | addVxVy (x y : Reg)
  /-- `8XY5` SUB VX, VY (R127). -/
  | subVxVy (x y : Reg)
  /-- `8XY6` SHR VX, VY (R128). -/
  | shrVxVy (x y : Reg)
  /-- `8XY7` SUBN VX, VY (R129). -/
  | subnVxVy (x y : Reg)
  /-- `8XYE` SHL VX, VY (R130). -/
  | shlVxVy (x y : Reg)
  /-- `9XY0` SNE VX, VY (R107). -/
  | sneVxVy (x y : Reg)
  /-- `ANNN` LD I, NNN (R150). -/
  | ldINNN (nnn : Addr12)
  /-- `BNNN` JP V0, NNN (R108). -/
  | jpV0NNN (nnn : Addr12)
  /-- `CXNN` RND VX, NN (R131). -/
  | rndVxNN (x : Reg) (nn : Byte)
  /-- `DXYN` DRW VX, VY, N (R171). -/
  | drwVxVyN (x y : Reg) (n : Nat)
  /-- `EX9E` SKP VX (R185). -/
  | skpVx (x : Reg)
  /-- `EXA1` SKNP VX (R186). -/
  | sknpVx (x : Reg)
  /-- `FX07` LD VX, DT (R200). -/
  | ldVxDT (x : Reg)
  /-- `FX0A` LD VX, K (R187). -/
  | ldVxK (x : Reg)
  /-- `FX15` LD DT, VX (R201). -/
  | ldDTVx (x : Reg)
  /-- `FX18` LD ST, VX (R202). -/
  | ldSTVx (x : Reg)
  /-- `FX1E` ADD I, VX (R151). -/
  | addIVx (x : Reg)
  /-- `FX29` LD F, VX (R152). -/
  | ldFVx (x : Reg)
  /-- `FX33` LD B, VX (R153). -/
  | ldBVx (x : Reg)
  /-- `FX55` LD [I], VX (R154). -/
  | ldMemIVx (x : Reg)
  /-- `FX65` LD VX, [I] (R155). -/
  | ldVxMemI (x : Reg)
deriving DecidableEq, Repr

end Sys2Proof
end

