-- ==== Sys2Proof/WellFormed.lean ====
section
/-! DEFINITION. When an instruction is well formed: when its operands fit the fields of its row (30_encoding.md R72).
Registers, NN and NNN fit by their types; the row count of DXYN is a number and is checked here. -/

namespace Sys2Proof

/-- R72: "`N` is used as an unsigned count 0 to 15". Every other operand fits by its type. -/
def Instr.wellFormed : Instr → Bool
  | .cls => true
  | .ret => true
  | .jpNNN _ => true
  | .callNNN _ => true
  | .seVxNN _ _ => true
  | .sneVxNN _ _ => true
  | .seVxVy _ _ => true
  | .ldVxNN _ _ => true
  | .addVxNN _ _ => true
  | .ldVxVy _ _ => true
  | .orVxVy _ _ => true
  | .andVxVy _ _ => true
  | .xorVxVy _ _ => true
  | .addVxVy _ _ => true
  | .subVxVy _ _ => true
  | .shrVxVy _ _ => true
  | .subnVxVy _ _ => true
  | .shlVxVy _ _ => true
  | .sneVxVy _ _ => true
  | .ldINNN _ => true
  | .jpV0NNN _ => true
  | .rndVxNN _ _ => true
  | .drwVxVyN _ _ n => decide (n ≤ 15)
  | .skpVx _ => true
  | .sknpVx _ => true
  | .ldVxDT _ => true
  | .ldVxK _ => true
  | .ldDTVx _ => true
  | .ldSTVx _ => true
  | .addIVx _ => true
  | .ldFVx _ => true
  | .ldBVx _ => true
  | .ldMemIVx _ => true
  | .ldVxMemI _ => true

end Sys2Proof
end

