-- ==== Sys2Proof/Decode.lean ====
section
/-! DEFINITION. The decoder (30_encoding.md R70–R76, R83), total on any word and any bytes, and after it the encoder,
written from the same encodings. The bit patterns are the spec's, which marks them as general knowledge (log 9). -/

namespace Sys2Proof

/-- Why bytes are no instruction, by name. -/
inductive DecodeError where
  /-- The word matches no row of R74 (R75). -/
  | unknownOpcode (w : Word)
  /-- Fewer than the two bytes of an instruction (R70): no fetch of the machine gives such bytes. -/
  | tooFewBytes
deriving DecidableEq, Repr

/-! ### The fields of a word (R71) -/

/-- `op` = w[15:12]. -/
def fieldOp (w : Word) : BitVec 4 := w.extractLsb' 12 4
/-- `X` = w[11:8], a register number. -/
def fieldX (w : Word) : Reg := (w.extractLsb' 8 4).toFin
/-- `Y` = w[7:4], a register number. -/
def fieldY (w : Word) : Reg := (w.extractLsb' 4 4).toFin
/-- `N` = w[3:0]. -/
def fieldN (w : Word) : BitVec 4 := w.extractLsb' 0 4
/-- `NN` = w[7:0]. -/
def fieldNN (w : Word) : Byte := w.extractLsb' 0 8
/-- `NNN` = w[11:0]. -/
def fieldNNN (w : Word) : Addr12 := w.extractLsb' 0 12

/-- Decode (R73, R74): by the high nibble, then by the low nibble or the low byte where the high nibble is not enough.
R75: a word that matches no row is illegal. -/
def decode (w : Word) : Except DecodeError Instr :=
  match fieldOp w with
  | 0x0#4 =>
    if w = 0x00E0#16 then .ok .cls
    else if w = 0x00EE#16 then .ok .ret
    else .error (.unknownOpcode w)
  | 0x1#4 => .ok (.jpNNN (fieldNNN w))
  | 0x2#4 => .ok (.callNNN (fieldNNN w))
  | 0x3#4 => .ok (.seVxNN (fieldX w) (fieldNN w))
  | 0x4#4 => .ok (.sneVxNN (fieldX w) (fieldNN w))
  | 0x5#4 => if fieldN w = 0#4 then .ok (.seVxVy (fieldX w) (fieldY w)) else .error (.unknownOpcode w)
  | 0x6#4 => .ok (.ldVxNN (fieldX w) (fieldNN w))
  | 0x7#4 => .ok (.addVxNN (fieldX w) (fieldNN w))
  | 0x8#4 =>
    match fieldN w with
    | 0x0#4 => .ok (.ldVxVy (fieldX w) (fieldY w))
    | 0x1#4 => .ok (.orVxVy (fieldX w) (fieldY w))
    | 0x2#4 => .ok (.andVxVy (fieldX w) (fieldY w))
    | 0x3#4 => .ok (.xorVxVy (fieldX w) (fieldY w))
    | 0x4#4 => .ok (.addVxVy (fieldX w) (fieldY w))
    | 0x5#4 => .ok (.subVxVy (fieldX w) (fieldY w))
    | 0x6#4 => .ok (.shrVxVy (fieldX w) (fieldY w))
    | 0x7#4 => .ok (.subnVxVy (fieldX w) (fieldY w))
    | 0xE#4 => .ok (.shlVxVy (fieldX w) (fieldY w))
    | _ => .error (.unknownOpcode w)
  | 0x9#4 => if fieldN w = 0#4 then .ok (.sneVxVy (fieldX w) (fieldY w)) else .error (.unknownOpcode w)
  | 0xA#4 => .ok (.ldINNN (fieldNNN w))
  | 0xB#4 => .ok (.jpV0NNN (fieldNNN w))
  | 0xC#4 => .ok (.rndVxNN (fieldX w) (fieldNN w))
  | 0xD#4 => .ok (.drwVxVyN (fieldX w) (fieldY w) (fieldN w).toNat)
  | 0xE#4 =>
    match fieldNN w with
    | 0x9E#8 => .ok (.skpVx (fieldX w))
    | 0xA1#8 => .ok (.sknpVx (fieldX w))
    | _ => .error (.unknownOpcode w)
  | 0xF#4 =>
    match fieldNN w with
    | 0x07#8 => .ok (.ldVxDT (fieldX w))
    | 0x0A#8 => .ok (.ldVxK (fieldX w))
    | 0x15#8 => .ok (.ldDTVx (fieldX w))
    | 0x18#8 => .ok (.ldSTVx (fieldX w))
    | 0x1E#8 => .ok (.addIVx (fieldX w))
    | 0x29#8 => .ok (.ldFVx (fieldX w))
    | 0x33#8 => .ok (.ldBVx (fieldX w))
    | 0x55#8 => .ok (.ldMemIVx (fieldX w))
    | 0x65#8 => .ok (.ldVxMemI (fieldX w))
    | _ => .error (.unknownOpcode w)
  | _ => .error (.unknownOpcode w)

/-- The byte at the lower address is bits 15:8 of the word (R55, R70). -/
def wordOfBytes (hi lo : Byte) : Word := hi ++ lo

/-- Bits 15:8 of a word: its byte at the lower address (R55). -/
def highByte (w : Word) : Byte := w.extractLsb' 8 8

/-- Bits 7:0 of a word: its byte at the higher address (R55). -/
def lowByte (w : Word) : Byte := w.extractLsb' 0 8

/-- The decoder on bytes: the first instruction and the bytes after it (R70: two bytes each). -/
def decodeBytes : List Byte → Except DecodeError (Instr × List Byte)
  | hi :: lo :: rest =>
    match decode (wordOfBytes hi lo) with
    | .ok i => .ok (i, rest)
    | .error e => .error e
  | [_] => .error .tooFewBytes
  | [] => .error .tooFewBytes

/-- The decoder on a word numbered as spec/opcode_table.json numbers it: bit 0 the least significant bit of the one
16-bit word, laid out big-endian (R70), the bits from nbits up zero. -/
def decodeTableWord (nbits w : Nat) : Option Instr :=
  let word : Word := BitVec.ofNat 16 (w % 2 ^ nbits)
  match decodeBytes [highByte word, lowByte word] with
  | .ok (i, _) => some i
  | .error _ => none

/-! ### The encoder (R71, R74) -/

/-- A register number as its 4-bit field. -/
def regField (x : Reg) : BitVec 4 := BitVec.ofFin x

/-- `op.NNN` -/
def encodeNNN (op : BitVec 4) (nnn : Addr12) : Word := op ++ nnn
/-- `op.X.NN`, and `op.X.fn8` with NN fixed. -/
def encodeXNN (op : BitVec 4) (x : Reg) (nn : Byte) : Word := op ++ regField x ++ nn
/-- `op.X.Y.N`, and `op.X.Y.fn` with N fixed. -/
def encodeXYN (op : BitVec 4) (x y : Reg) (n : BitVec 4) : Word := op ++ regField x ++ regField y ++ n

/-- The word of an instruction (R74). -/
def encode : Instr → Word
  | .cls => 0x00E0#16
  | .ret => 0x00EE#16
  | .jpNNN nnn => encodeNNN 0x1 nnn
  | .callNNN nnn => encodeNNN 0x2 nnn
  | .seVxNN x nn => encodeXNN 0x3 x nn
  | .sneVxNN x nn => encodeXNN 0x4 x nn
  | .seVxVy x y => encodeXYN 0x5 x y 0x0
  | .ldVxNN x nn => encodeXNN 0x6 x nn
  | .addVxNN x nn => encodeXNN 0x7 x nn
  | .ldVxVy x y => encodeXYN 0x8 x y 0x0
  | .orVxVy x y => encodeXYN 0x8 x y 0x1
  | .andVxVy x y => encodeXYN 0x8 x y 0x2
  | .xorVxVy x y => encodeXYN 0x8 x y 0x3
  | .addVxVy x y => encodeXYN 0x8 x y 0x4
  | .subVxVy x y => encodeXYN 0x8 x y 0x5
  | .shrVxVy x y => encodeXYN 0x8 x y 0x6
  | .subnVxVy x y => encodeXYN 0x8 x y 0x7
  | .shlVxVy x y => encodeXYN 0x8 x y 0xE
  | .sneVxVy x y => encodeXYN 0x9 x y 0x0
  | .ldINNN nnn => encodeNNN 0xA nnn
  | .jpV0NNN nnn => encodeNNN 0xB nnn
  | .rndVxNN x nn => encodeXNN 0xC x nn
  | .drwVxVyN x y n => encodeXYN 0xD x y (BitVec.ofNat 4 n)
  | .skpVx x => encodeXNN 0xE x 0x9E
  | .sknpVx x => encodeXNN 0xE x 0xA1
  | .ldVxDT x => encodeXNN 0xF x 0x07
  | .ldVxK x => encodeXNN 0xF x 0x0A
  | .ldDTVx x => encodeXNN 0xF x 0x15
  | .ldSTVx x => encodeXNN 0xF x 0x18
  | .addIVx x => encodeXNN 0xF x 0x1E
  | .ldFVx x => encodeXNN 0xF x 0x29
  | .ldBVx x => encodeXNN 0xF x 0x33
  | .ldMemIVx x => encodeXNN 0xF x 0x55
  | .ldVxMemI x => encodeXNN 0xF x 0x65

/-- The bytes of an instruction, the first at the lower address. -/
def encodeBytes (i : Instr) : List Byte := [highByte (encode i), lowByte (encode i)]

/-! ### The opcode map as data (R74) -/

/-- One row of the opcode map: a word `w` encodes the row's instruction when `w &&& mask = value`. -/
structure OpcodeRow where
  mnemonic : String
  value : Word
  mask : Word
deriving DecidableEq, Repr

/-- Does the word match the row (R74: "the word `w` encodes the instruction when `w & mask = match`")? -/
def OpcodeRow.accepts (r : OpcodeRow) (w : Word) : Bool := w &&& r.mask == r.value

/-- The rows selected by the high nibble 0 to 7. -/
def opcodeRowsLow : List OpcodeRow :=
  [⟨"CLS", 0x00E0, 0xFFFF⟩, ⟨"RET", 0x00EE, 0xFFFF⟩, ⟨"JP_NNN", 0x1000, 0xF000⟩, ⟨"CALL_NNN", 0x2000, 0xF000⟩,
   ⟨"SE_VX__NN", 0x3000, 0xF000⟩, ⟨"SNE_VX__NN", 0x4000, 0xF000⟩, ⟨"SE_VX__VY", 0x5000, 0xF00F⟩,
   ⟨"LD_VX__NN", 0x6000, 0xF000⟩, ⟨"ADD_VX__NN", 0x7000, 0xF000⟩]

/-- The rows selected by the high nibbles 8 to D. -/
def opcodeRowsMid : List OpcodeRow :=
  [⟨"LD_VX__VY", 0x8000, 0xF00F⟩, ⟨"OR_VX__VY", 0x8001, 0xF00F⟩, ⟨"AND_VX__VY", 0x8002, 0xF00F⟩,
   ⟨"XOR_VX__VY", 0x8003, 0xF00F⟩, ⟨"ADD_VX__VY", 0x8004, 0xF00F⟩, ⟨"SUB_VX__VY", 0x8005, 0xF00F⟩,
   ⟨"SHR_VX__VY", 0x8006, 0xF00F⟩, ⟨"SUBN_VX__VY", 0x8007, 0xF00F⟩, ⟨"SHL_VX__VY", 0x800E, 0xF00F⟩,
   ⟨"SNE_VX__VY", 0x9000, 0xF00F⟩, ⟨"LD_I__NNN", 0xA000, 0xF000⟩, ⟨"JP_V0__NNN", 0xB000, 0xF000⟩,
   ⟨"RND_VX__NN", 0xC000, 0xF000⟩, ⟨"DRW_VX__VY__N", 0xD000, 0xF000⟩]

/-- The rows selected by the high nibbles E and F. -/
def opcodeRowsHigh : List OpcodeRow :=
  [⟨"SKP_VX", 0xE09E, 0xF0FF⟩, ⟨"SKNP_VX", 0xE0A1, 0xF0FF⟩, ⟨"LD_VX__DT", 0xF007, 0xF0FF⟩,
   ⟨"LD_VX__K", 0xF00A, 0xF0FF⟩, ⟨"LD_DT__VX", 0xF015, 0xF0FF⟩, ⟨"LD_ST__VX", 0xF018, 0xF0FF⟩,
   ⟨"ADD_I__VX", 0xF01E, 0xF0FF⟩, ⟨"LD_F__VX", 0xF029, 0xF0FF⟩, ⟨"LD_B__VX", 0xF033, 0xF0FF⟩,
   ⟨"LD__I___VX", 0xF055, 0xF0FF⟩, ⟨"LD_VX___I", 0xF065, 0xF0FF⟩]

/-- The 34 rows of R74, in its order. -/
def opcodeRows : List OpcodeRow := opcodeRowsLow ++ opcodeRowsMid ++ opcodeRowsHigh

/-- The place of an instruction's row in `opcodeRows`. -/
def Instr.rowIndex : Instr → Nat
  | .cls => 0 | .ret => 1 | .jpNNN _ => 2 | .callNNN _ => 3 | .seVxNN _ _ => 4 | .sneVxNN _ _ => 5 | .seVxVy _ _ => 6
  | .ldVxNN _ _ => 7 | .addVxNN _ _ => 8 | .ldVxVy _ _ => 9 | .orVxVy _ _ => 10 | .andVxVy _ _ => 11
  | .xorVxVy _ _ => 12 | .addVxVy _ _ => 13 | .subVxVy _ _ => 14 | .shrVxVy _ _ => 15 | .subnVxVy _ _ => 16
  | .shlVxVy _ _ => 17 | .sneVxVy _ _ => 18 | .ldINNN _ => 19 | .jpV0NNN _ => 20 | .rndVxNN _ _ => 21
  | .drwVxVyN _ _ _ => 22 | .skpVx _ => 23 | .sknpVx _ => 24 | .ldVxDT _ => 25 | .ldVxK _ => 26 | .ldDTVx _ => 27
  | .ldSTVx _ => 28 | .addIVx _ => 29 | .ldFVx _ => 30 | .ldBVx _ => 31 | .ldMemIVx _ => 32 | .ldVxMemI _ => 33

end Sys2Proof
end

