-- ==== Sys2Proof/Config.lean ====
section
/-! DEFINITION. The configuration parameters of 00_scope.md R8 and the free draw of R9. -/

namespace Sys2Proof

/-- The configuration of R8, "fixed for the life of a machine". No instruction and no host operation writes it.
It travels in the machine's state because exec's and step's types are fixed (log 1). -/
structure Config where
  /-- `QUIRK_SHIFT_USES_VY`: 8XY6 and 8XYE shift VY into VX; when false they shift VX in place. -/
  quirkShiftUsesVY : Bool
  /-- `QUIRK_LOADSTORE_INCREMENTS_I`: FX55 and FX65 leave I = I + X + 1. -/
  quirkLoadStoreIncrementsI : Bool
  /-- `QUIRK_JUMP_USES_VX`: BNNN adds VX, X = bits 11:8, instead of V0. -/
  quirkJumpUsesVX : Bool
  /-- `QUIRK_SPRITE_WRAP`: sprite pixels past an edge wrap around; when false they are clipped. -/
  quirkSpriteWrap : Bool
  /-- `FONT_BASE`: the address of the digit-0 sprite, 0x000 ≤ FONT_BASE ≤ 0x1B0. -/
  fontBase : Fin 0x1B1
  /-- `RESERVED_WRITE_FAULTS`: a write into 0x000–0x1FF raises OutOfBounds. -/
  reservedWriteFaults : Bool
deriving DecidableEq, Repr

/-- The defaults of R8's table (decisions D2, D3, D4, D5, D11, D15). DESIGN CHOICE (log 2): unsafe for a claim about
`State.reset` alone; a claim over every state holds for every configuration. -/
def Config.default : Config where
  quirkShiftUsesVY := false
  quirkLoadStoreIncrementsI := false
  quirkJumpUsesVX := false
  quirkSpriteWrap := false
  fontBase := 0
  reservedWriteFaults := false

/-- The draw `rnd` of R9 and R131: an 8-bit value under no law, one for each index of the draw counter. It has no body,
so no proof can see a value of it. DESIGN CHOICE of the form (log 3): safe. -/
opaque Config.rnd : Nat → Byte

end Sys2Proof
end

