-- ==== Sys2Proof/Machine/State.lean ====
section
/-! DEFINITION. The machine's state (10_state.md R20 to R41), the latched fatal error (60_exceptions.md R210), the host's
two stop types, and the state after reset (10_state.md R41, 70_reset_and_hazards.md R240). -/

namespace Sys2Proof.Machine

/-- Memory (20_memory.md R50): the bytes that differ from the reset contents, by address, addresses strictly rising.
What an unlisted address reads as is `initialByte` of Machine/Memory.lean (log 8); the form is `Memory.wf` there. -/
abbrev Memory := List Host.Cell

/-- The display surface (R34): 32 rows from the top, each 64 pixels from the left; true is set. -/
abbrev Display := Vector (Vector Bool 64) 32

/-- The 16 key states (R37); true is pressed. -/
abbrev KeyStates := Vector Bool 16

/-- The awaiting-key sub-state `Some(x, prev)` of R38: the destination register and the key states at the last look. -/
structure KeyWait where
  x : Reg
  prev : KeyStates
deriving DecidableEq, Repr

/-- The error conditions of 60_exceptions.md R210 with their recorded information. They are the spec's fatal errors, which a
step takes by latching a record and going on to a next state (R211, log 5); they are not the host's `Fault` below. -/
inductive FatalError where
  /-- Code 1: the lowest offending address (20_memory.md R51, R61). -/
  | outOfBounds (addr : Nat)
  /-- Code 2: the word fetched (30_encoding.md R75). -/
  | unknownOpcode (word : Word)
  /-- Code 3: 2NNN with SP = 16 (10_state.md R30). -/
  | stackOverflow
  /-- Code 4: 00EE with SP = 0 (10_state.md R31). -/
  | stackUnderflow
  /-- Code 5: never raised, since every register field is 4 bits (R210, 30_encoding.md R72). -/
  | invalidRegister (index : Nat)
  /-- Code 6: the answer of a `load` that is too long, never latched (R228). -/
  | programTooLarge (len : Nat)
  /-- Code 7: FX29, EX9E, EXA1 with VX > 0xF: the offending VX. -/
  | unspecifiedOperand (value : Byte)
deriving DecidableEq, Repr

/-- The latched record of R210: the error, the address the failing word was fetched from, and the word when the fetch
succeeded. Its numeric code is `FatalRecord.code` of Machine/Ops.lean, read off the error. -/
structure FatalRecord where
  error : FatalError
  pc : Word
  word : Option Word
deriving DecidableEq, Repr

/-- The host's stop reason. The spec's errors are not among them: they lead to a next state (log 5). -/
inductive Fault where
  /-- Raised by 2NNN and 00EE in a state with SP > 16, which 10_state.md R28 ("0 ≤ SP ≤ 16") excludes and no run reaches
  (log 7). SAFE: the model stops where the spec has no state. -/
  | stackPointerOutOfRange
deriving DecidableEq, Repr

/-- The host's refusal reason. -/
inductive Refusal where
  /-- An instruction that has no meaning yet, by its mnemonic in spec/opcode_table.json. SAFE. No arm of `exec` answers
  it: all 34 instructions have their meaning. -/
  | notModelled (mnemonic : String)
deriving DecidableEq, Repr

/-- Why an instruction's effect is abandoned: it raises a fatal error of the spec (R211), or the state is none of the
spec's. -/
inductive Stop where
  | raise (e : FatalError)
  | outsideSpec (f : Fault)
deriving DecidableEq, Repr

/-- The state aggregate `S` of R20, under the spec's names, and the two fields of the model's own that carry a step's
parameters (R8, R9; logs 1 and 3). -/
structure State where
  /-- The configuration of 00_scope.md R8; nothing writes it (log 1). -/
  cfg : Config
  /-- `Mem`, R50. -/
  mem : Memory
  /-- `V[0..15]`, R21. -/
  v : Vector Byte 16
  /-- `I`, R24. -/
  i : Word
  /-- `PC`, R25. -/
  pc : Word
  /-- `SP`, R28: the number of entries on the call stack. -/
  sp : Byte
  /-- `Stack[0..15]`, R29. -/
  stack : Vector Word 16
  /-- `DT`, R32. -/
  dt : Byte
  /-- `ST`, R33. -/
  st : Byte
  /-- `Disp[0..31][0..63]`, R34. -/
  disp : Display
  /-- `DrawFlag`, R36. -/
  drawFlag : Bool
  /-- `Key[0..15]`, R37. -/
  key : KeyStates
  /-- `Wait`, R38. -/
  wait : Option KeyWait
  /-- `Fault`, R39. -/
  fault : Option FatalRecord
  /-- The number of draws read so far: the index of the free value `Config.rnd` the next CXNN reads (R9, log 3). -/
  drawCount : Nat
deriving DecidableEq, Repr

/-- The state of R41 and R240 for a configuration; the program area is empty until a `load` (R240). V, I, Stack, DrawFlag
and Wait hold values the spec chose where its source is silent (log 4). -/
def State.initial (cfg : Config) : State where
  cfg := cfg
  mem := []
  v := Vector.replicate 16 0x00
  i := 0x0000
  pc := 0x0200
  sp := 0
  stack := Vector.replicate 16 0x0000
  dt := 0x00
  st := 0x00
  disp := Vector.replicate 32 (Vector.replicate 64 false)
  drawFlag := false
  key := Vector.replicate 16 false
  wait := none
  fault := none
  drawCount := 0

/-- The machine right after reset, at the default configuration of R8 (log 2). -/
def State.reset : State := State.initial Config.default

end Sys2Proof.Machine
end

