-- ==== Sys2Proof/Machine/Memory.lean ====
section
/-! DEFINITION. Memory as 4096 bytes (20_memory.md R50, R60): the font, what an unlisted address reads as, reading and
writing bytes, and the canonical form. The bounds checks stand in Machine/Ops.lean. -/

namespace Sys2Proof.Machine

/-- The first half of `FONT`, digits 0 to 7 (70_reset_and_hazards.md R248). -/
def fontLow : List Byte :=
  [0xF0, 0x90, 0x90, 0x90, 0xF0,  0x20, 0x60, 0x20, 0x20, 0x70,
   0xF0, 0x10, 0xF0, 0x80, 0xF0,  0xF0, 0x10, 0xF0, 0x10, 0xF0,
   0x90, 0x90, 0xF0, 0x10, 0x10,  0xF0, 0x80, 0xF0, 0x10, 0xF0,
   0xF0, 0x80, 0xF0, 0x90, 0xF0,  0xF0, 0x10, 0x20, 0x40, 0x40]

/-- The second half of `FONT`, digits 8 to F (R248). -/
def fontHigh : List Byte :=
  [0xF0, 0x90, 0xF0, 0x90, 0xF0,  0xF0, 0x90, 0xF0, 0x10, 0xF0,
   0xF0, 0x90, 0xF0, 0x90, 0x90,  0xE0, 0x90, 0xE0, 0x90, 0xE0,
   0xF0, 0x80, 0x80, 0x80, 0xF0,  0xE0, 0x90, 0x90, 0x90, 0xE0,
   0xF0, 0x80, 0xF0, 0x80, 0xF0,  0xF0, 0x80, 0xF0, 0x80, 0x80]

/-- `FONT[0..79]`, digit d at FONT[5d .. 5d + 4] (R248). The bytes are the spec's general knowledge (log 9). -/
def font : List Byte := fontLow ++ fontHigh

/-- The reset contents of a byte (R240): a font byte at FONT_BASE + i, else 0x00. An address that nothing has written
reads as this (20_memory.md R63, log 8). -/
def initialByte (fontBase : Fin 0x1B1) (a : Nat) : Byte :=
  if a < fontBase.val then 0x00 else font.getD (a - fontBase.val) 0x00

/-- One byte of memory. -/
def Memory.read (fontBase : Fin 0x1B1) : Memory → Nat → Byte
  | [], a => initialByte fontBase a
  | (k, b) :: m, a => if k = a then b else Memory.read fontBase m a

/-- Write one byte, keeping the canonical form: writing the reset contents removes the entry. -/
def Memory.write (fontBase : Fin 0x1B1) (m : Memory) (a : Nat) (b : Byte) : Memory :=
  match m with
  | [] => if b = initialByte fontBase a then [] else [(a, b)]
  | (k, c) :: rest =>
    if a < k then (if b = initialByte fontBase a then (k, c) :: rest else (a, b) :: (k, c) :: rest)
    else if a = k then (if b = initialByte fontBase a then rest else (a, b) :: rest)
    else (k, c) :: Memory.write fontBase rest a b

/-- The n bytes from a upward, in order (R52). -/
def Memory.readBytes (fontBase : Fin 0x1B1) (m : Memory) (a : Nat) : Nat → List Byte
  | 0 => []
  | n + 1 => m.read fontBase a :: Memory.readBytes fontBase m (a + 1) n

/-- Write the bytes to a, a + 1, ... in order (R53). -/
def Memory.writeBytes (fontBase : Fin 0x1B1) (m : Memory) (a : Nat) : List Byte → Memory
  | [] => m
  | b :: bs => Memory.writeBytes fontBase (m.write fontBase a b) (a + 1) bs

/-- The canonical form from the address lo upward: addresses strictly rising, all below 0x1000, and no entry equal to what
its address would read as unlisted. -/
def Memory.wfFrom (fontBase : Fin 0x1B1) : Nat → Memory → Bool
  | _, [] => true
  | lo, (k, b) :: m =>
    decide (lo ≤ k) && decide (k < 0x1000) && decide (b ≠ initialByte fontBase k) && Memory.wfFrom fontBase (k + 1) m

/-- The canonical form: equal memories are equal lists. -/
def Memory.wf (fontBase : Fin 0x1B1) (m : Memory) : Bool := Memory.wfFrom fontBase 0 m

end Sys2Proof.Machine
end

