-- ==== Sys2Proof/Machine/Ops.lean ====
section
/-! DEFINITION. The named operations over registers, memory and the call stack (00_scope.md R12, 10_state.md,
20_memory.md), taking a fatal error (60_exceptions.md R211), and how an instruction's effect becomes a step (R13, R80). -/

namespace Sys2Proof.Machine

/-! ### Registers (R12) -/

/-- `V[x]` -/
def State.getV (s : State) (x : Reg) : Byte := s.v[x.val]

/-- `V[x] <- b` -/
def State.setV (s : State) (x : Reg) (b : Byte) : State := { s with v := s.v.set x.val b }

/-- `V[0xF] <- flag`, the write of VF as the flag (10_state.md R22): 1 or 0. -/
def State.setFlag (s : State) (flag : Bool) : State := s.setV vF (if flag then 1 else 0)

/-- `I <- a` -/
def State.setI (s : State) (a : Word) : State := { s with i := a }

/-- `PC <- a` -/
def State.setPC (s : State) (a : Word) : State := { s with pc := a }

/-- `PC <- PC + 2`, modulo 2^16 (10_state.md R27): the advance of the cycle (30_encoding.md R80). -/
def State.advancePC (s : State) : State := s.setPC (s.pc + 2)

/-- `skip()`: a taken skip adds 2 to PC (40_control_flow.md R100). -/
def State.skip (s : State) : State := s.setPC (s.pc + 2)

/-- `if c: skip()` -/
def State.skipIf (s : State) (c : Bool) : State := if c then s.skip else s

/-- Registers V[k], V[k + 1], ... take the bytes in order; a byte past VF has no register (42_index_memory.md R155). -/
def loadRegs (v : Vector Byte 16) (k : Nat) : List Byte → Vector Byte 16
  | [] => v
  | b :: bs => loadRegs (v.setIfInBounds k b) (k + 1) bs

/-- `[V[0], V[1], ..., V[x]]` (42_index_memory.md R154). -/
def State.regsUpTo (s : State) (x : Reg) : List Byte := s.v.toList.take (x.val + 1)

/-! ### Memory (20_memory.md) -/

/-- The byte at an address, unchecked: the model's read of one byte. -/
def State.byteAt (s : State) (a : Nat) : Byte := s.mem.read s.cfg.fontBase a

/-- `check(addr, n)` of R51, n ≥ 1: the addresses are exact integers and must lie in 0x000–0xFFF. -/
def check (addr n : Nat) : Except Stop Unit :=
  if addr + n - 1 > 0xFFF then .error (.raise (.outOfBounds (max addr 0x1000))) else .ok ()

/-- `checkReserved(addr, n)` of R61. -/
def checkReserved (cfg : Config) (addr : Nat) : Except Stop Unit :=
  if cfg.reservedWriteFaults && decide (addr < 0x200) then .error (.raise (.outOfBounds addr)) else .ok ()

/-- `MemRead(addr, n)` as the list of its bytes, n ≥ 1 (R52). -/
def State.memRead (s : State) (addr n : Nat) : Except Stop (List Byte) :=
  match check addr n with
  | .error e => .error e
  | .ok () => .ok (s.mem.readBytes s.cfg.fontBase addr n)

/-- `MemWrite(addr, n, bytes)` with n the number of bytes, n ≥ 1: both checks before any byte (R53). -/
def State.memWrite (s : State) (addr : Nat) (bytes : List Byte) : Except Stop State :=
  match check addr bytes.length with
  | .error e => .error e
  | .ok () =>
    match checkReserved s.cfg addr with
    | .error e => .error e
    | .ok () => .ok { s with mem := s.mem.writeBytes s.cfg.fontBase addr bytes }

/-! ### The call stack (10_state.md R28 to R31) -/

/-- `push(a)` of R30. SP > 16 is no state of the spec (R28, log 7). -/
def State.push (s : State) (a : Word) : Except Stop State :=
  if s.sp = 16 then .error (.raise .stackOverflow)
  else if 16 < s.sp then .error (.outsideSpec .stackPointerOutOfRange)
  else .ok { s with stack := s.stack.setIfInBounds s.sp.toNat a, sp := s.sp + 1 }

/-- `pop()` of R31: the popped address and the state after. SP > 16 is no state of the spec (R28, log 7). -/
def State.pop (s : State) : Except Stop (Word × State) :=
  if s.sp = 0 then .error (.raise .stackUnderflow)
  else if 16 < s.sp then .error (.outsideSpec .stackPointerOutOfRange)
  else .ok (s.stack.toList.getD (s.sp - 1).toNat 0, { s with sp := s.sp - 1 })

/-! ### Taking a fatal error (60_exceptions.md R210, R211) -/

/-- The numeric code of an error condition (R210's table). The codes are the spec's decision D19 (log 5). -/
def FatalError.code : FatalError → Nat
  | .outOfBounds _ => 1
  | .unknownOpcode _ => 2
  | .stackOverflow => 3
  | .stackUnderflow => 4
  | .invalidRegister _ => 5
  | .programTooLarge _ => 6
  | .unspecifiedOperand _ => 7

/-- The code in a record, `{code F, ...}` of 30_encoding.md R80: the record stores the error once, and this reads its code. -/
def FatalRecord.code (r : FatalRecord) : Nat := r.error.code

/-- Taking a fatal error, the block's only exception mechanism (R211, R215): the state is as it was before the step, PC
still holds pc0, and the record {error, pc0, word if fetched} is latched. There is no trap return (R216): the one way out is
`State.load` of Machine/HostInterface.lean. -/
def State.takeFatal (s : State) (e : FatalError) (word : Option Word) : State :=
  { s with fault := some { error := e, pc := s.pc, word := word } }

/-! ### From an instruction's effect to a step (00_scope.md R13, 30_encoding.md R80) -/

/-- Run an instruction's effect on the state whose PC is already advanced (R82). If it raises, every write is discarded and
the fatal error is taken from the state before the step, with the instruction's own word in the record (R80, R211; log 6). -/
def perform (i : Instr) (s : State) (effect : State → Except Stop State) : Host.Outcome State Fault Refusal :=
  match effect s.advancePC with
  | .ok t => .next t
  | .error (.raise e) => .next (s.takeFatal e (some (encode i)))
  | .error (.outsideSpec f) => .fault f

/-- Run an effect that raises nothing. -/
def complete (s : State) (effect : State → State) : Host.Outcome State Fault Refusal :=
  .next (effect s.advancePC)

end Sys2Proof.Machine
end

