-- ==== Sys2Proof/Machine/Operands.lean ====
section
/-! DEFINITION. The operand forms: which register an instruction reads under a quirk, operands that must be a digit or a key
number, and the one data addressing mode (42_index_memory.md R156). -/

namespace Sys2Proof.Machine

/-- The source of 8XY6 and 8XYE: VY when `QUIRK_SHIFT_USES_VY`, else VX (41_load_arith.md R128, R130). -/
def State.shiftSource (s : State) (x y : Reg) : Byte :=
  if s.cfg.quirkShiftUsesVY then s.getV y else s.getV x

/-- X = w[11:8] of a word BNNN: the high nibble of NNN (40_control_flow.md R108). -/
def jumpReg (nnn : Addr12) : Reg := (nnn.extractLsb' 8 4).toFin

/-- The offset of BNNN: VX when `QUIRK_JUMP_USES_VX`, else V0 (R108). -/
def State.jumpOffset (s : State) (nnn : Addr12) : Byte :=
  if s.cfg.quirkJumpUsesVX then s.getV (jumpReg nnn) else s.getV 0

/-- The value of VX as an index 0x0 to 0xF; a larger value raises UnspecifiedOperand (42_index_memory.md R152,
44_input.md R185, R186). -/
def State.nibbleOperand (s : State) (x : Reg) : Except Stop (Fin 16) :=
  if h : (s.getV x).toNat < 16 then .ok ⟨(s.getV x).toNat, h⟩
  else .error (.raise (.unspecifiedOperand (s.getV x)))

/-- The address I of a data access, an exact integer (R156, 20_memory.md R51). -/
def State.indexAddr (s : State) : Nat := s.i.toNat

/-- The post-increment of FX55 and FX65: I + X + 1 when `QUIRK_LOADSTORE_INCREMENTS_I` (R154, R155, R156). -/
def State.postIncrementI (s : State) (x : Reg) : State :=
  if s.cfg.quirkLoadStoreIncrementsI then s.setI (s.i + BitVec.ofNat 16 (x.val + 1)) else s

/-- The address of a digit's font sprite (R152, 20_memory.md R60). -/
def State.fontAddr (s : State) (d : Fin 16) : Word := BitVec.ofNat 16 (s.cfg.fontBase.val + 5 * d.val)

/-- The three decimal digits of a byte, hundreds first (R153). -/
def decimalDigits (b : Byte) : List Byte :=
  [BitVec.ofNat 8 (b.toNat / 100), BitVec.ofNat 8 (b.toNat / 10 % 10), BitVec.ofNat 8 (b.toNat % 10)]

end Sys2Proof.Machine
end

