-- ==== Sys2Proof/Machine/Flags.lean ====
section
/-! DEFINITION. The flag computations: the value VF takes in the instructions that write it as a flag (10_state.md R22;
41_load_arith.md R126 to R130). The collision flag of DXYN is computed with the drawing, in Machine/Display.lean. -/

namespace Sys2Proof.Machine

/-- 8XY4: 1 when the exact sum exceeds 0xFF (R126). -/
def carryFlag (vx vy : Byte) : Bool := decide (0xFF < vx.toNat + vy.toNat)

/-- 8XY5 and 8XY7: 1 when `a - b` needs no borrow, `a ≥ b` (R127, R129). -/
def noBorrowFlag (a b : Byte) : Bool := decide (b.toNat ≤ a.toNat)

/-- 8XY6: the bit shifted out, bit 0 of the source (R128). -/
def shiftedOutRight (src : Byte) : Bool := src.getLsbD 0

/-- 8XYE: the bit shifted out, bit 7 of the source (R130). -/
def shiftedOutLeft (src : Byte) : Bool := src.getLsbD 7

/-- `trunc_8` of the exact sum (R126, R132). -/
def sum8 (a b : Byte) : Byte := BitVec.ofNat 8 (a.toNat + b.toNat)

/-- `trunc_8(a - b + 0x100)`, exact (R127, R129, R132). -/
def diff8 (a b : Byte) : Byte := BitVec.ofNat 8 (a.toNat + 0x100 - b.toNat)

end Sys2Proof.Machine
end

