-- ==== Sys2Proof/Machine/ControlFlow.lean ====
section
/-! DEFINITION. The control-flow instructions (40_control_flow.md). In every effect PC already holds pc0 + 2 (R82). -/

namespace Sys2Proof.Machine

/-- `00EE` RET (R101): `PC <- pop()`. -/
def execRet (s : State) : Host.Outcome State Fault Refusal :=
  perform .ret s fun t =>
    match t.pop with
    | .error e => .error e
    | .ok (a, t') => .ok (t'.setPC a)

/-- `1NNN` JP NNN (R102). -/
def execJpNNN (nnn : Addr12) (s : State) : Host.Outcome State Fault Refusal :=
  complete s fun t => t.setPC (zext16 nnn)

/-- `2NNN` CALL NNN (R103): `push(PC)`, then `PC <- zext_16(NNN)`. -/
def execCallNNN (nnn : Addr12) (s : State) : Host.Outcome State Fault Refusal :=
  perform (.callNNN nnn) s fun t =>
    match t.push t.pc with
    | .error e => .error e
    | .ok t' => .ok (t'.setPC (zext16 nnn))

/-- `3XNN` SE VX, NN (R104). -/
def execSeVxNN (x : Reg) (nn : Byte) (s : State) : Host.Outcome State Fault Refusal :=
  complete s fun t => t.skipIf (t.getV x == nn)

/-- `4XNN` SNE VX, NN (R105). -/
def execSneVxNN (x : Reg) (nn : Byte) (s : State) : Host.Outcome State Fault Refusal :=
  complete s fun t => t.skipIf (t.getV x != nn)

/-- `5XY0` SE VX, VY (R106). -/
def execSeVxVy (x y : Reg) (s : State) : Host.Outcome State Fault Refusal :=
  complete s fun t => t.skipIf (t.getV x == t.getV y)

/-- `9XY0` SNE VX, VY (R107). -/
def execSneVxVy (x y : Reg) (s : State) : Host.Outcome State Fault Refusal :=
  complete s fun t => t.skipIf (t.getV x != t.getV y)

/-- `BNNN` JP V0, NNN (R108): the sum is not masked to 12 bits. -/
def execJpV0NNN (nnn : Addr12) (s : State) : Host.Outcome State Fault Refusal :=
  complete s fun t => t.setPC (zext16 nnn + zext16 (t.jumpOffset nnn))

end Sys2Proof.Machine
end

