-- ==== Sys2Proof/Machine/Display.lean ====
section
/-! DEFINITION. The display surface and its instructions (43_display.md). -/

namespace Sys2Proof.Machine

/-- `Disp[y][x]`. -/
def Display.pixel (d : Display) (x : Fin 64) (y : Fin 32) : Bool := (d[y.val])[x.val]

/-- `Disp[y][x] <- Disp[y][x] ^ 1`. -/
def Display.toggle (d : Display) (x : Fin 64) (y : Fin 32) : Display :=
  d.set y.val ((d[y.val]).set x.val (!d.pixel x y))

/-- All pixels 0 (R170). -/
def blankDisplay : Display := Vector.replicate 32 (Vector.replicate 64 false)

/-- Where a pixel of a sprite lands: wrapped when `QUIRK_SPRITE_WRAP`, else clipped past the right or bottom edge (R171). -/
def landing (wrap : Bool) (px py : Nat) : Option (Fin 64 × Fin 32) :=
  if wrap then some (Fin.ofNat 64 px, Fin.ofNat 32 py)
  else if h : px < 64 ∧ py < 32 then some (⟨px, h.1⟩, ⟨py, h.2⟩)
  else none

/-- One set bit of a sprite: a pixel that is set is a collision, and the pixel is toggled; a clipped pixel does nothing
(R171). The pair is the display and the collision so far. -/
def plot (wrap : Bool) (px py : Nat) (a : Display × Bool) : Display × Bool :=
  match landing wrap px py with
  | none => a
  | some (x, y) => (a.1.toggle x y, a.2 || a.1.pixel x y)

/-- The columns offsets cs of one row of a sprite, in order: bit 7 − c is the pixel at offset c (R174). -/
def drawColumns (wrap : Bool) (row : Byte) (x0 y : Nat) : List Nat → Display × Bool → Display × Bool
  | [], a => a
  | c :: cs, a =>
    drawColumns wrap row x0 y cs (if row.getLsbD (7 - c) then plot wrap (x0 + c) y a else a)

/-- The column offsets of a row: "for c in 0 .. 7". -/
def spriteColumns : List Nat := [0, 1, 2, 3, 4, 5, 6, 7]

/-- The rows of a sprite from row y down (R171). -/
def drawRows (wrap : Bool) (x0 y : Nat) : List Byte → Display × Bool → Display × Bool
  | [], a => a
  | row :: rows, a => drawRows wrap x0 (y + 1) rows (drawColumns wrap row x0 y spriteColumns a)

/-- The rows read by DXYN: none for N = 0, and then without a bounds check (R171). -/
def State.spriteRows (s : State) (n : Nat) : Except Stop (List Byte) :=
  if n = 0 then .ok [] else s.memRead s.indexAddr n

/-- `00E0` CLS (R170). -/
def execCls (s : State) : Host.Outcome State Fault Refusal :=
  complete s fun t => { t with disp := blankDisplay, drawFlag := true }

/-- `DXYN` DRW VX, VY, N (R171): the start wraps, the rows are read, the sprite is drawn, DrawFlag is set, and VF takes the
collision flag last. -/
def execDrwVxVyN (x y : Reg) (n : Nat) (s : State) : Host.Outcome State Fault Refusal :=
  perform (.drwVxVyN x y n) s fun t =>
    match t.spriteRows n with
    | .error e => .error e
    | .ok rows =>
      let drawn := drawRows t.cfg.quirkSpriteWrap ((t.getV x).toNat % 64) ((t.getV y).toNat % 32) rows (t.disp, false)
      .ok ({ t with disp := drawn.1, drawFlag := true }.setFlag drawn.2)

end Sys2Proof.Machine
end

