-- ==== Sys2Proof/Machine/IndexMemory.lean ====
section
/-! DEFINITION. The index register and memory instructions (42_index_memory.md). -/

namespace Sys2Proof.Machine

/-- `ANNN` LD I, NNN (R150). -/
def execLdINNN (nnn : Addr12) (s : State) : Host.Outcome State Fault Refusal :=
  complete s fun t => t.setI (zext16 nnn)

/-- `FX1E` ADD I, VX (R151): modulo 2^16, no 12-bit mask, no flag. -/
def execAddIVx (x : Reg) (s : State) : Host.Outcome State Fault Refusal :=
  complete s fun t => t.setI (t.i + zext16 (t.getV x))

/-- `FX29` LD F, VX (R152). -/
def execLdFVx (x : Reg) (s : State) : Host.Outcome State Fault Refusal :=
  perform (.ldFVx x) s fun t =>
    match t.nibbleOperand x with
    | .error e => .error e
    | .ok d => .ok (t.setI (t.fontAddr d))

/-- `FX33` LD B, VX (R153): the decimal digits to I, I + 1, I + 2. -/
def execLdBVx (x : Reg) (s : State) : Host.Outcome State Fault Refusal :=
  perform (.ldBVx x) s fun t => t.memWrite t.indexAddr (decimalDigits (t.getV x))

/-- `FX55` LD [I], VX (R154): V0 to VX to I .. I + X. -/
def execLdMemIVx (x : Reg) (s : State) : Host.Outcome State Fault Refusal :=
  perform (.ldMemIVx x) s fun t =>
    match t.memWrite t.indexAddr (t.regsUpTo x) with
    | .error e => .error e
    | .ok t' => .ok (t'.postIncrementI x)

/-- `FX65` LD VX, [I] (R155): the bytes at I .. I + X to V0 to VX. -/
def execLdVxMemI (x : Reg) (s : State) : Host.Outcome State Fault Refusal :=
  perform (.ldVxMemI x) s fun t =>
    match t.memRead t.indexAddr (x.val + 1) with
    | .error e => .error e
    | .ok bytes => .ok ({ t with v := loadRegs t.v 0 bytes }.postIncrementI x)

end Sys2Proof.Machine
end

