-- ==== Sys2Proof/Machine/Input.lean ====
section
/-! DEFINITION. The input instructions and the key-wait poll (44_input.md). -/

namespace Sys2Proof.Machine

/-- `is_pressed(k)`, a read of Key[k] (60_exceptions.md R220). -/
def State.isPressed (s : State) (k : KeyIndex) : Bool := s.key[k.val]

/-- `EX9E` SKP VX (R185). -/
def execSkpVx (x : Reg) (s : State) : Host.Outcome State Fault Refusal :=
  perform (.skpVx x) s fun t =>
    match t.nibbleOperand x with
    | .error e => .error e
    | .ok k => .ok (t.skipIf (t.isPressed k))

/-- `EXA1` SKNP VX (R186). -/
def execSknpVx (x : Reg) (s : State) : Host.Outcome State Fault Refusal :=
  perform (.sknpVx x) s fun t =>
    match t.nibbleOperand x with
    | .error e => .error e
    | .ok k => .ok (t.skipIf (!t.isPressed k))

/-- `FX0A` LD VX, K (R187), the step that fetches the word: the wait begins with a copy of the key states, and PC goes back
to pc0. -/
def execLdVxK (x : Reg) (s : State) : Host.Outcome State Fault Refusal :=
  complete s fun t => { t with wait := some { x := x, prev := t.key } }.setPC (t.pc - 2)

/-- The keys in rising order. -/
def allKeys : List KeyIndex := [0, 1, 2, 3, 4, 5, 6, 7, 8, 9, 10, 11, 12, 13, 14, 15]

/-- `min(E)`, E the keys newly pressed since prev (R188). -/
def newlyPressed (key prev : KeyStates) : Option KeyIndex :=
  allKeys.find? fun k => key[k.val] && !prev[k.val]

/-- The key-wait poll of R188: without a newly pressed key remember the current states; else the lowest one goes to VX,
PC moves past the FX0A word, and the wait ends. -/
def State.keyWaitPoll (s : State) (w : KeyWait) : State :=
  match newlyPressed s.key w.prev with
  | none => { s with wait := some { x := w.x, prev := s.key } }
  | some k => { (s.setV w.x (BitVec.ofNat 8 k.val)).advancePC with wait := none }

end Sys2Proof.Machine
end

