-- ==== Sys2Proof/Machine/LoadArith.lean ====
section
/-! DEFINITION. Constant and register load, and arithmetic (41_load_arith.md). Operands are read first, VX is written, and
VF as a flag is the last write (R133, 10_state.md R23). -/

namespace Sys2Proof.Machine

/-- `6XNN` LD VX, NN (R120). -/
def execLdVxNN (x : Reg) (nn : Byte) (s : State) : Host.Outcome State Fault Refusal :=
  complete s fun t => t.setV x nn

/-- `7XNN` ADD VX, NN (R121): no flag. -/
def execAddVxNN (x : Reg) (nn : Byte) (s : State) : Host.Outcome State Fault Refusal :=
  complete s fun t => t.setV x (sum8 (t.getV x) nn)

/-- `8XY0` LD VX, VY (R122). -/
def execLdVxVy (x y : Reg) (s : State) : Host.Outcome State Fault Refusal :=
  complete s fun t => t.setV x (t.getV y)

/-- `8XY1` OR VX, VY (R123): no flag. -/
def execOrVxVy (x y : Reg) (s : State) : Host.Outcome State Fault Refusal :=
  complete s fun t => t.setV x (t.getV x ||| t.getV y)

/-- `8XY2` AND VX, VY (R124): no flag. -/
def execAndVxVy (x y : Reg) (s : State) : Host.Outcome State Fault Refusal :=
  complete s fun t => t.setV x (t.getV x &&& t.getV y)

/-- `8XY3` XOR VX, VY (R125): no flag. -/
def execXorVxVy (x y : Reg) (s : State) : Host.Outcome State Fault Refusal :=
  complete s fun t => t.setV x (t.getV x ^^^ t.getV y)

/-- `8XY4` ADD VX, VY (R126). -/
def execAddVxVy (x y : Reg) (s : State) : Host.Outcome State Fault Refusal :=
  complete s fun t =>
    (t.setV x (sum8 (t.getV x) (t.getV y))).setFlag (carryFlag (t.getV x) (t.getV y))

/-- `8XY5` SUB VX, VY (R127). -/
def execSubVxVy (x y : Reg) (s : State) : Host.Outcome State Fault Refusal :=
  complete s fun t =>
    (t.setV x (diff8 (t.getV x) (t.getV y))).setFlag (noBorrowFlag (t.getV x) (t.getV y))

/-- `8XY6` SHR VX, VY (R128). -/
def execShrVxVy (x y : Reg) (s : State) : Host.Outcome State Fault Refusal :=
  complete s fun t =>
    (t.setV x (t.shiftSource x y >>> 1)).setFlag (shiftedOutRight (t.shiftSource x y))

/-- `8XY7` SUBN VX, VY (R129). -/
def execSubnVxVy (x y : Reg) (s : State) : Host.Outcome State Fault Refusal :=
  complete s fun t =>
    (t.setV x (diff8 (t.getV y) (t.getV x))).setFlag (noBorrowFlag (t.getV y) (t.getV x))

/-- `8XYE` SHL VX, VY (R130). -/
def execShlVxVy (x y : Reg) (s : State) : Host.Outcome State Fault Refusal :=
  complete s fun t =>
    (t.setV x (t.shiftSource x y <<< 1)).setFlag (shiftedOutLeft (t.shiftSource x y))

/-- The effect of CXNN with the draw given: `V[X] <- rnd & NN` (R131). -/
def randomLoad (rnd : Byte) (x : Reg) (nn : Byte) (t : State) : State := t.setV x (rnd &&& nn)

/-- `CXNN` RND VX, NN (R131): the step's draw is the free value at the draw counter, which moves on to the next draw
(00_scope.md R9, log 3). -/
def execRndVxNN (x : Reg) (nn : Byte) (s : State) : Host.Outcome State Fault Refusal :=
  complete s fun t => { randomLoad (Config.rnd t.drawCount) x nn t with drawCount := t.drawCount + 1 }

end Sys2Proof.Machine
end

