-- ==== Sys2Proof/Machine/Timers.lean ====
section
/-! DEFINITION. The timer instructions (45_timers.md). The tick is a host operation: Machine/HostInterface.lean. -/

namespace Sys2Proof.Machine

/-- `FX07` LD VX, DT (R200). -/
def execLdVxDT (x : Reg) (s : State) : Host.Outcome State Fault Refusal :=
  complete s fun t => t.setV x t.dt

/-- `FX15` LD DT, VX (R201). -/
def execLdDTVx (x : Reg) (s : State) : Host.Outcome State Fault Refusal :=
  complete s fun t => { t with dt := t.getV x }

/-- `FX18` LD ST, VX (R202). -/
def execLdSTVx (x : Reg) (s : State) : Host.Outcome State Fault Refusal :=
  complete s fun t => { t with st := t.getV x }

end Sys2Proof.Machine
end

