-- ==== Sys2Proof/Machine/Cycle.lean ====
section
/-! DEFINITION. The fetch-decode-execute cycle (30_encoding.md R80, R81; 60_exceptions.md R211 to R213). -/

namespace Sys2Proof.Machine

/-- Fetch the word at PC: `MemRead(PC, 2)`, big-endian (20_memory.md R52, R55). -/
def State.fetch (s : State) : Except Stop Word :=
  match check s.pc.toNat 2 with
  | .error e => .error e
  | .ok () => .ok (wordOfBytes (s.byteAt s.pc.toNat) (s.byteAt (s.pc.toNat + 1)))

/-- A step with no fatal error latched and no wait pending: fetch, decode, execute (R80). The advance of PC stands in
`perform` and `complete` (log 6). -/
def runInstruction (s : State) : Host.Outcome State Fault Refusal :=
  match s.fetch with
  | .error (.raise e) => .next (s.takeFatal e none)
  | .error (.outsideSpec f) => .fault f
  | .ok w =>
    match decode w with
    | .error _ => .next (s.takeFatal (.unknownOpcode w) (some w))
    | .ok i => exec i s

/-- `step()` of R80: a latched fatal error first, then a pending key wait, then one instruction (R213). -/
def cycle (s : State) : Host.Outcome State Fault Refusal :=
  match s.fault with
  | some _ => .next s
  | none =>
    match s.wait with
    | some w => .next (s.keyWaitPoll w)
    | none => runInstruction s

/-- What `step()` returns to the host (R81). -/
inductive StepResult where
  | ok
  | awaitingInput
  | fatal (r : FatalRecord)
deriving DecidableEq, Repr

/-- The return value of the step that led to this state: Fatal(record) when a fatal error is latched, AwaitingInput when a
wait is pending, else Ok (R80, R81, log 5). -/
def State.stepResult (s : State) : StepResult :=
  match s.fault with
  | some r => .fatal r
  | none =>
    match s.wait with
    | some _ => .awaitingInput
    | none => .ok

/-- Store an instruction word where the next step fetches: at PC, big-endian. -/
def State.storeWord (s : State) (w : Word) : State :=
  { s with
    mem := s.mem.writeBytes s.cfg.fontBase s.pc.toNat [highByte w, lowByte w] }

/-- Ready to fetch: no fatal error latched, no wait pending, and a PC with room for a word (else 0x200). -/
def State.readyToFetch (s : State) : State :=
  { s with
    fault := none
    wait := none
    pc := if s.pc.toNat ≤ 0xFFE then s.pc else 0x0200 }

end Sys2Proof.Machine
end

