-- ==== Sys2Proof/Machine/Step.lean ====
section
/-! DEFINITION. One step (30_encoding.md R80), and the state whose next step runs a given instruction word. -/

namespace Sys2Proof.Machine

/-- `step()` of R80. -/
def step (s : State) : Host.Outcome State Fault Refusal := cycle s

/-- The state s with the word w (numbered as spec/opcode_table.json numbers it, the bits from nbits up zero) where the next
step fetches, and nothing in the way of that fetch. It stands for a program loaded from outside (log 10). -/
def State.withFetchWord (s : State) (nbits w : Nat) : State :=
  s.readyToFetch.storeWord (BitVec.ofNat 16 (w % 2 ^ nbits))

end Sys2Proof.Machine
end

