-- ==== Sys2Proof/Machine/HostInterface.lean ====
section
/-! DEFINITION. The host interface (60_exceptions.md R219 to R224, R228; 70_reset_and_hazards.md R240, R241;
45_timers.md R203, R204): the operations of the block that are not instructions, and a host schedule as a list of events. -/

namespace Sys2Proof.Machine

/-- `tick()` (R203): each timer down by 1 unless it is 0; it runs whatever the engine is doing. -/
def State.tick (s : State) : State :=
  { s with
    dt := if s.dt = 0 then s.dt else s.dt - 1
    st := if s.st = 0 then s.st else s.st - 1 }

/-- `set_key(k, p)` with 0 ≤ k ≤ 15 (R220): `Key[k] <- p` and nothing else. -/
def State.setKey (s : State) (k : KeyIndex) (pressed : Bool) : State := { s with key := s.key.set k.val pressed }

/-- `snapshot()` (R221, 10_state.md R36): a copy of Disp for the host, and DrawFlag is cleared (log 12). -/
def State.snapshot (s : State) : Display × State := (s.disp, { s with drawFlag := false })

/-- `sound_active()` (R204): a read of ST. -/
def State.soundActive (s : State) : Bool := s.st != 0

/-- What `load` answers (R228, R241). -/
inductive LoadResult where
  | ok
  | programTooLarge (len : Nat)
deriving DecidableEq, Repr

/-- The error condition of a failed `load` (60_exceptions.md R210, code 6: "`load` only, never a step"). -/
def LoadResult.error : LoadResult → Option FatalError
  | .ok => none
  | .programTooLarge len => some (.programTooLarge len)

/-- `reset()` of R240 at any time: every field of R41 at its value. The configuration is "fixed for the life of a machine"
(00_scope.md R8), and the draws already taken are not taken again (log 3). -/
def State.resetInPlace (s : State) : State := { State.initial s.cfg with drawCount := s.drawCount }

/-- `load(bytes)` (R241): too long an image changes nothing (R228); else reset, and the image from 0x200 upward. It is the
only way out of the faulted state (R216). -/
def State.load (s : State) (bytes : List Byte) : LoadResult × State :=
  if 3584 < bytes.length then (.programTooLarge bytes.length, s)
  else (.ok, { s.resetInPlace with mem := s.resetInPlace.mem.writeBytes s.cfg.fontBase 0x200 bytes })

/-- The host's moves (R223). `sound_active` changes nothing and is no move. -/
inductive HostEvent where
  | step
  | tick
  | setKey (k : KeyIndex) (pressed : Bool)
  | snapshot
  | load (bytes : List Byte)
deriving DecidableEq, Repr

/-- One move, run to completion (R224). -/
def State.onEvent (s : State) : HostEvent → Host.Outcome State Fault Refusal
  | .step => step s
  | .tick => .next s.tick
  | .setKey k p => .next (s.setKey k p)
  | .snapshot => .next s.snapshot.2
  | .load bytes => .next (s.load bytes).2

/-- A host schedule: its moves in order, stopping at a fault or refusal (R224: "A model makes this order free"). -/
def State.onEvents (s : State) : List HostEvent → Host.Outcome State Fault Refusal
  | [] => .next s
  | e :: es =>
    match s.onEvent e with
    | .next t => State.onEvents t es
    | .fault f => .fault f
    | .refused r => .refused r

end Sys2Proof.Machine
end

