-- ==== Sys2Proof/Safety.lean ====
section
/-! DEFINITION. The terms that claims about runs use: when a step runs an instruction, the invariants of the state, what a
sprite covers, which registers an instruction may write, and the end of a run. -/

namespace Sys2Proof

/-! ### What an instruction may write -/

/-- The registers an instruction may write: its destinations, and VF where it is written as a flag (10_state.md R22;
42_index_memory.md R155). -/
def Instr.mayWrite : Instr → Reg → Bool
  | .cls, _ => false
  | .ret, _ => false
  | .jpNNN _, _ => false
  | .callNNN _, _ => false
  | .seVxNN _ _, _ => false
  | .sneVxNN _ _, _ => false
  | .seVxVy _ _, _ => false
  | .ldVxNN x _, r => r == x
  | .addVxNN x _, r => r == x
  | .ldVxVy x _, r => r == x
  | .orVxVy x _, r => r == x
  | .andVxVy x _, r => r == x
  | .xorVxVy x _, r => r == x
  | .addVxVy x _, r => r == x || r == vF
  | .subVxVy x _, r => r == x || r == vF
  | .shrVxVy x _, r => r == x || r == vF
  | .subnVxVy x _, r => r == x || r == vF
  | .shlVxVy x _, r => r == x || r == vF
  | .sneVxVy _ _, _ => false
  | .ldINNN _, _ => false
  | .jpV0NNN _, _ => false
  | .rndVxNN x _, r => r == x
  | .drwVxVyN _ _ _, r => r == vF
  | .skpVx _, _ => false
  | .sknpVx _, _ => false
  | .ldVxDT x, r => r == x
  | .ldVxK _, _ => false
  | .ldDTVx _, _ => false
  | .ldSTVx _, _ => false
  | .addIVx _, _ => false
  | .ldFVx _, _ => false
  | .ldBVx _, _ => false
  | .ldMemIVx _, _ => false
  | .ldVxMemI x, r => decide (r ≤ x)

/-- How many bytes an instruction stores, upward from the address I (20_memory.md R58). -/
def Instr.storeLength : Instr → Nat
  | .cls => 0
  | .ret => 0
  | .jpNNN _ => 0
  | .callNNN _ => 0
  | .seVxNN _ _ => 0
  | .sneVxNN _ _ => 0
  | .seVxVy _ _ => 0
  | .ldVxNN _ _ => 0
  | .addVxNN _ _ => 0
  | .ldVxVy _ _ => 0
  | .orVxVy _ _ => 0
  | .andVxVy _ _ => 0
  | .xorVxVy _ _ => 0
  | .addVxVy _ _ => 0
  | .subVxVy _ _ => 0
  | .shrVxVy _ _ => 0
  | .subnVxVy _ _ => 0
  | .shlVxVy _ _ => 0
  | .sneVxVy _ _ => 0
  | .ldINNN _ => 0
  | .jpV0NNN _ => 0
  | .rndVxNN _ _ => 0
  | .drwVxVyN _ _ _ => 0
  | .skpVx _ => 0
  | .sknpVx _ => 0
  | .ldVxDT _ => 0
  | .ldVxK _ => 0
  | .ldDTVx _ => 0
  | .ldSTVx _ => 0
  | .addIVx _ => 0
  | .ldFVx _ => 0
  | .ldBVx _ => 3
  | .ldMemIVx x => x.val + 1
  | .ldVxMemI _ => 0

end Sys2Proof

namespace Sys2Proof.Machine

/-! ### Running an instruction -/

/-- The word at PC, whether or not a fetch would be in bounds. -/
def State.wordAtPC (s : State) : Word := wordOfBytes (s.byteAt s.pc.toNat) (s.byteAt (s.pc.toNat + 1))

/-- The next step runs the instruction i: nothing is latched or pending, and the bytes at PC are there and decode to i
(30_encoding.md R80). -/
abbrev State.Runs (s : State) (i : Instr) : Prop :=
  s.fault = none ∧ s.wait = none ∧ s.pc.toNat ≤ 0xFFE ∧ decode s.wordAtPC = .ok i

/-- An outcome with its next state changed, to compare two outcomes but for one field. -/
def mapNext (f : State → State) : Host.Outcome State Fault Refusal → Host.Outcome State Fault Refusal
  | .next t => .next (f t)
  | .fault r => .fault r
  | .refused r => .refused r

/-! ### The display -/

/-- Does a set bit of the n-row sprite at I, drawn at (VX mod 64, VY mod 32), land on the pixel (px, py)? A closed form of
43_display.md R171 and R174, with no loop over a display. -/
def State.spriteCovers (s : State) (x y : Reg) (n : Nat) (px : Fin 64) (py : Fin 32) : Bool :=
  (List.range n).any fun r => (List.range 8).any fun c =>
    (s.byteAt (s.i.toNat + r)).getLsbD (7 - c) &&
      (if s.cfg.quirkSpriteWrap then
        decide (((s.getV x).toNat % 64 + c) % 64 = px.val ∧ ((s.getV y).toNat % 32 + r) % 32 = py.val)
      else
        decide ((s.getV x).toNat % 64 + c = px.val ∧ (s.getV y).toNat % 32 + r = py.val))

/-! ### The invariants -/

/-- 10_state.md R28: "0 ≤ SP ≤ 16". -/
abbrev State.StackBounded (s : State) : Prop := s.sp.toNat ≤ 16

/-- What the return addresses are: each is pc0 + 2 of a CALL, so at most 0x1000 (40_control_flow.md R103). -/
abbrev State.ReturnsBounded (s : State) : Prop := ∀ k : Fin 16, k.val < s.sp.toNat → s.stack[k.val].toNat ≤ 0x1000

/-- 10_state.md R27: "every control transfer leaves PC at most 0x10FE". -/
abbrev State.PCBounded (s : State) : Prop := s.pc.toNat ≤ 0x10FE

/-- Memory is in its canonical form. -/
abbrev State.MemoryCanonical (s : State) : Prop := s.mem.wf s.cfg.fontBase = true

/-- While a wait is pending PC holds the address of its FX0A word (10_state.md R38, 44_input.md R187, R188). -/
def State.waitAtKeyWord (s : State) : Bool :=
  match s.wait with
  | none => true
  | some w => decide (s.pc.toNat ≤ 0xFFE) && decide (s.wordAtPC = encode (.ldVxK w.x))

/-- The error conditions that a step can raise (60_exceptions.md R210): InvalidRegister is raised never, ProgramTooLarge is
`load` only. -/
def FatalError.stepCanRaise : FatalError → Bool
  | .outOfBounds _ => true
  | .unknownOpcode _ => true
  | .stackOverflow => true
  | .stackUnderflow => true
  | .invalidRegister _ => false
  | .programTooLarge _ => false
  | .unspecifiedOperand _ => true

/-- A latched record names the address PC still holds and, where a word was fetched, the word there; no wait is pending; and
the error is one that a step can raise (R210, R211, R214). -/
def State.recordPrecise (s : State) : Bool :=
  match s.fault with
  | none => true
  | some r =>
    decide (r.pc = s.pc) && decide (r.word = none ∨ r.word = some s.wordAtPC) && decide (s.wait = none) &&
      r.error.stepCanRaise

/-- All of them together. -/
structure State.Inv (s : State) : Prop where
  stackBounded : s.StackBounded
  returnsBounded : s.ReturnsBounded
  pcBounded : s.PCBounded
  memoryCanonical : s.MemoryCanonical
  waitAtKeyWord : s.waitAtKeyWord = true
  recordPrecise : s.recordPrecise = true

/-! ### The end of a run (70_reset_and_hazards.md R246) -/

/-- Halted by a jump to itself: the word at PC is `1NNN` with NNN = PC (R246, case 2). -/
abbrev State.HaltedBySelfJump (s : State) : Prop := ∃ nnn : Addr12, s.Runs (.jpNNN nnn) ∧ zext16 nnn = s.pc

/-- A run is over: faulted, or halted by a jump to itself (R246). -/
abbrev State.RunIsOver (s : State) : Prop := s.fault ≠ none ∨ s.HaltedBySelfJump

end Sys2Proof.Machine
end

