-- ==== Sys2Proof/Certificates/Slice0/Obligations.lean ====
section
/-! DEFINITION. The statements for the provers. Each docstring names what of the spec it formalises; where a clause rests on a
decision of the spec's own (92_eei_decisions.md) or on its general knowledge (93_implementation_defined.md), it says so.
In a statement about `exec i s`, s is the state before the step: PC holds the address of i's word. -/

open Sys2Proof Sys2Proof.Machine

/-! ### Encoding -/

/-- 30_encoding.md R74, R83: no operand bit is dropped. The patterns are the spec's general knowledge (log 9). -/
def Obligations.DecodeOfEncodeIsTheInstruction : Prop :=
  ∀ i : Instr, i.wellFormed = true → decode (encode i) = .ok i

/-- The other direction: a word that decodes is the encoding of what it decodes to, and that is well formed. -/
def Obligations.EncodeOfDecodeIsTheWord : Prop :=
  ∀ (w : Word) (i : Instr), decode w = .ok i → i.wellFormed = true ∧ encode i = w

/-- R74: a word decodes to an instruction exactly when the instruction's own row accepts it, and then no other row does. -/
def Obligations.DecodeFollowsTheOpcodeMap : Prop :=
  ∀ (w : Word) (k : Nat) (r : OpcodeRow), opcodeRows[k]? = some r →
    (r.accepts w = true ↔ ∃ i, decode w = .ok i ∧ i.rowIndex = k)

/-- R75: the illegal words are exactly the listed ones, and each is refused as itself. The list rests on decision D10. -/
def Obligations.IllegalWordsAreExactlyTheListedOnes : Prop :=
  ∀ w : Word, decode w = .error (.unknownOpcode w) ↔
    (w.toNat / 0x1000 = 0 ∧ w.toNat ≠ 0x00E0 ∧ w.toNat ≠ 0x00EE) ∨
    ((w.toNat / 0x1000 = 5 ∨ w.toNat / 0x1000 = 9) ∧ w.toNat % 0x10 ≠ 0) ∨
    (w.toNat / 0x1000 = 8 ∧ w.toNat % 0x10 ∈ [0x8, 0x9, 0xA, 0xB, 0xC, 0xD, 0xF]) ∨
    (w.toNat / 0x1000 = 0xE ∧ w.toNat % 0x100 ∉ [0x9E, 0xA1]) ∨
    (w.toNat / 0x1000 = 0xF ∧ w.toNat % 0x100 ∉ [0x07, 0x0A, 0x15, 0x18, 0x1E, 0x29, 0x33, 0x55, 0x65])

/-- Words written out from the patterns of R74, one of each family. -/
def Obligations.WordsOfEachFamilyDecode : Prop :=
  decode 0x2345#16 = .ok (.callNNN 0x345) ∧ decode 0x8AB4#16 = .ok (.addVxVy 0xA 0xB) ∧
  decode 0xFC33#16 = .ok (.ldBVx 0xC) ∧ decode 0xD12F#16 = .ok (.drwVxVyN 1 2 15) ∧
  decode 0xE5A1#16 = .ok (.sknpVx 5) ∧ decode 0xF718#16 = .ok (.ldSTVx 7)

/-- R70: two bytes an instruction, the high byte first, on any bytes and on a table word. -/
def Obligations.BytesOfAnInstructionDecode : Prop :=
  ∀ (i : Instr) (rest : List Byte), i.wellFormed = true →
    decodeBytes (encodeBytes i ++ rest) = .ok (i, rest) ∧ decodeTableWord 16 (encode i).toNat = some i

/-! ### The cycle (30_encoding.md) -/

/-- R80: with nothing latched or pending, a step runs the instruction the bytes at PC decode to. `exec` takes the state
before the advance of PC and makes the advance itself (log 6). -/
def Obligations.StepRunsTheDecodedInstruction : Prop :=
  ∀ (s : State) (i : Instr), s.fault = none → s.wait = none → s.pc.toNat ≤ 0xFFE →
    decode (wordOfBytes (s.byteAt s.pc.toNat) (s.byteAt (s.pc.toNat + 1))) = .ok i → step s = exec i s

/-- 10_state.md R26: PC has no alignment; the fetch at any PC with room for two bytes, odd or even, reads the bytes at PC and
PC + 1. That an odd PC fetches normally is the spec's decision D29 (log 20). -/
def Obligations.FetchNeedsNoAlignment : Prop :=
  ∀ s : State, s.pc.toNat + 1 ≤ 0xFFF →
    s.fetch = .ok (s.byteAt s.pc.toNat ++ s.byteAt (s.pc.toNat + 1))

/-- 20_memory.md R51, R56, 30_encoding.md R75, 60_exceptions.md R210, R214: a fetch with no room for two bytes raises
OutOfBounds of the lowest address out of range, with no word in the record; an illegal word raises UnknownOpcode of that word
at that address; neither changes anything else; and whichever error a step raises, the record names the address and, where
one was fetched, the word. What the records hold is decision D19. -/
def Obligations.FetchAndDecodeErrorsAreFatal : Prop :=
  ∀ s : State, s.fault = none → s.wait = none →
    (0xFFE < s.pc.toNat → step s = .next { s with
      fault := some { error := .outOfBounds (if s.pc.toNat = 0xFFF then 0x1000 else s.pc.toNat), pc := s.pc, word := none } }) ∧
    (∀ w, s.fetch = .ok w → (∀ i, decode w ≠ .ok i) → step s = .next { s with
      fault := some { error := .unknownOpcode w, pc := s.pc, word := some w } }) ∧
    (∀ (t : State) (r : FatalRecord), step s = .next t → t.fault = some r →
      r.pc = s.pc ∧ (r.word = none ∧ s.fetch = .error (.raise r.error) ∨ ∃ w, s.fetch = .ok w ∧ r.word = some w))

/-- 60_exceptions.md R211: a step that raises keeps none of its writes, PC included, latches the record, and returns
Fatal(record). -/
def Obligations.RaisingKeepsNoWrite : Prop :=
  ∀ (s t : State) (r : FatalRecord), s.fault = none → step s = .next t → t.fault = some r →
    t = { s with fault := some r } ∧ t.stepResult = .fatal r

/-- 60_exceptions.md R210: which error comes from which instruction. UnspecifiedOperand is the spec's own (decision D12). -/
def Obligations.ErrorsComeFromTheirInstructions : Prop :=
  ∀ (i : Instr) (s t : State) (r : FatalRecord), s.fault = none → exec i s = .next t → t.fault = some r →
    match r.error with
    | .outOfBounds _ => (∃ x y n, i = .drwVxVyN x y n) ∨ (∃ x, i = .ldBVx x ∨ i = .ldMemIVx x ∨ i = .ldVxMemI x)
    | .stackOverflow => ∃ nnn, i = .callNNN nnn
    | .stackUnderflow => i = .ret
    | .unspecifiedOperand b => ∃ x, (i = .ldFVx x ∨ i = .skpVx x ∨ i = .sknpVx x) ∧ b = s.getV x ∧ 0xF < b.toNat
    | .unknownOpcode _ => False
    | .invalidRegister _ => False
    | .programTooLarge _ => False

/-- 60_exceptions.md R212: once a fatal error is latched every step returns it and changes nothing, and the one move that
leaves the faulted state is a `load` of an image that fits. Decision D18. -/
def Obligations.LatchedErrorStaysUntilLoad : Prop :=
  ∀ (s : State) (r : FatalRecord), s.fault = some r →
    step s = .next s ∧ s.stepResult = .fatal r ∧
    (∀ (e : HostEvent) (t : State), s.onEvent e = .next t → t.fault ≠ some r →
      t.fault = none ∧ ∃ bytes, e = .load bytes ∧ bytes.length ≤ 3584)

/-- 70_reset_and_hazards.md R246: when a run is over, every later step changes nothing. Decision D28. -/
def Obligations.FinishedRunStaysFinished : Prop :=
  ∀ s : State, s.RunIsOver → ∀ n : Nat, Sys2Proof.core.run n s = .next s

/-! ### Memory (20_memory.md) -/

/-- R52: after the check of R51 `MemRead` gives the bytes from addr upward, and the two-byte form, the fetch, is big-endian.
The address that a failed check reports is decision D19. That `memRead` is a list of bytes at every n, and that the fetch
alone is the two-byte form as a 16-bit value, is the model's choice (log 21). -/
def Obligations.MemReadGivesTheBytesInOrder : Prop :=
  ∀ (s : State) (addr n : Nat), 1 ≤ n →
    (addr + n - 1 ≤ 0xFFF →
      ∃ bytes, s.memRead addr n = .ok bytes ∧ bytes.length = n ∧ ∀ k, k < n → bytes[k]? = some (s.byteAt (addr + k))) ∧
    (addr + n - 1 ≤ 0xFFF → addr = s.pc.toNat → n = 2 →
      ∃ w, s.fetch = .ok w ∧ w.toNat = (s.byteAt addr).toNat * 256 + (s.byteAt (addr + 1)).toNat) ∧
    (0xFFF < addr + n - 1 →
      s.memRead addr n = .error (.raise (.outOfBounds (if addr < 0x1000 then 0x1000 else addr))))

/-- R53: `MemWrite` after both checks writes the bytes in order and changes only the bytes it names; a failed check, bounds
before reserved, writes nothing. The address that a failed check reports is decision D19, the reserved check decision D15. -/
def Obligations.MemWriteChangesOnlyItsBytes : Prop :=
  ∀ (s : State) (addr : Nat) (bytes : List Byte), s.MemoryCanonical → bytes ≠ [] →
    (0xFFF < addr + bytes.length - 1 →
      s.memWrite addr bytes = .error (.raise (.outOfBounds (if addr < 0x1000 then 0x1000 else addr)))) ∧
    (addr + bytes.length - 1 ≤ 0xFFF → s.cfg.reservedWriteFaults = true → addr < 0x200 →
      s.memWrite addr bytes = .error (.raise (.outOfBounds addr))) ∧
    (addr + bytes.length - 1 ≤ 0xFFF → (s.cfg.reservedWriteFaults = true → 0x200 ≤ addr) →
      ∃ t, s.memWrite addr bytes = .ok t ∧ t = { s with mem := t.mem } ∧
        ∀ a, t.byteAt a = if addr ≤ a ∧ a < addr + bytes.length then bytes.getD (a - addr) 0 else s.byteAt a)

/-! ### Control flow (40_control_flow.md) -/

/-- R102, R108: jumps. BNNN adds V0, or VX with X the high nibble of NNN under the quirk, and the sum is not masked
(decisions D4, D17). -/
def Obligations.JumpsLandOnTheirTarget : Prop :=
  ∀ (nnn : Addr12) (s : State),
    exec (.jpNNN nnn) s = .next { s with pc := BitVec.ofNat 16 nnn.toNat } ∧
    exec (.jpV0NNN nnn) s = .next { s with
      pc := BitVec.ofNat 16 (nnn.toNat + (if s.cfg.quirkJumpUsesVX
        then (s.v[nnn.toNat / 256]?.getD 0).toNat else s.v[0].toNat)) }

/-- 10_state.md R30 through 2NNN: push at SP = 16 raises StackOverflow at the CALL's address and pushes nothing; else the
return address goes to Stack[SP], SP grows by one, and control goes to NNN (40_control_flow.md R103). The address in the
record is decision D19; that SP counts entries of a stack apart from memory is decision D22 (log 20). -/
def Obligations.CallPushesOrOverflows : Prop :=
  ∀ (nnn : Addr12) (s : State),
    (s.sp = 16 → ∃ r : FatalRecord, exec (.callNNN nnn) s = .next { s with fault := some r } ∧
      r.error = .stackOverflow ∧ r.pc = s.pc) ∧
    (∀ h : s.sp.toNat < 16, exec (.callNNN nnn) s = .next { s with
      stack := s.stack.set s.sp.toNat (s.pc + 2), sp := s.sp + 1, pc := BitVec.ofNat 16 nnn.toNat })

/-- 10_state.md R31 through 00EE: pop at SP = 0 raises StackUnderflow at the RET's address; else SP shrinks by one and PC
takes Stack[SP] (40_control_flow.md R101), with no mask (decision D17). The address in the record is decision D19; that SP
counts entries of a stack apart from memory is decision D22. D17 and D22 are log 20. -/
def Obligations.ReturnPopsOrUnderflows : Prop :=
  ∀ s : State,
    (s.sp = 0 → ∃ r : FatalRecord, exec .ret s = .next { s with fault := some r } ∧
      r.error = .stackUnderflow ∧ r.pc = s.pc) ∧
    (∀ (_ : 0 < s.sp.toNat) (_ : s.sp.toNat ≤ 16), exec .ret s = .next { s with
      sp := s.sp - 1, pc := s.stack[s.sp.toNat - 1] })

/-- In a state with SP > 16, which R28 excludes, CALL and RET stop by the name `stackPointerOutOfRange`: the model's choice,
log 7. -/
def Obligations.StackOutsideTheSpecStops : Prop :=
  ∀ (nnn : Addr12) (s : State), 16 < s.sp.toNat →
    exec (.callNNN nnn) s = .fault .stackPointerOutOfRange ∧ exec .ret s = .fault .stackPointerOutOfRange

/-- R101, R103, and the source's "`call(addr)` then `return()`": the RET of a CALL, whatever ran between them and left the
stack as it found it, resumes after the CALL. -/
def Obligations.ReturnResumesAfterItsCall : Prop :=
  ∀ (nnn : Addr12) (s t u : State), s.sp.toNat < 16 → exec (.callNNN nnn) s = .next t →
    u.sp = t.sp → u.stack = t.stack →
    ∃ w, exec .ret u = .next w ∧ w.pc = s.pc + 2 ∧ w.sp = s.sp ∧ w = { u with pc := w.pc, sp := w.sp }

/-- R100, R104 to R107: each conditional skip adds 2 more to PC when its condition holds, and changes nothing else. That a
skip is two bytes is the spec's general knowledge (K5). -/
def Obligations.SkipsTestTheirCondition : Prop :=
  ∀ (x y : Reg) (nn : Byte) (s : State),
    exec (.seVxNN x nn) s = .next { s with pc := s.pc + (if s.v[x.val] = nn then 4 else 2) } ∧
    exec (.sneVxNN x nn) s = .next { s with pc := s.pc + (if s.v[x.val] = nn then 2 else 4) } ∧
    exec (.seVxVy x y) s = .next { s with pc := s.pc + (if s.v[x.val] = s.v[y.val] then 4 else 2) } ∧
    exec (.sneVxVy x y) s = .next { s with pc := s.pc + (if s.v[x.val] = s.v[y.val] then 2 else 4) }

/-! ### Load and arithmetic (41_load_arith.md) -/

/-- R120, R122: constant and register load; nothing else changes. -/
def Obligations.LoadsCopyTheirSource : Prop :=
  ∀ (x y : Reg) (nn : Byte) (s : State),
    exec (.ldVxNN x nn) s = .next { s with pc := s.pc + 2, v := s.v.set x.val nn } ∧
    exec (.ldVxVy x y) s = .next { s with pc := s.pc + 2, v := s.v.set x.val s.v[y.val] }

/-- R121: the sum modulo 256, and no flag, even on overflow, but when VF itself is the destination. Decision D8. -/
def Obligations.AddImmediateWritesNoFlag : Prop :=
  ∀ (x : Reg) (nn : Byte) (s : State),
    exec (.addVxNN x nn) s = .next { s with
      pc := s.pc + 2, v := s.v.set x.val (BitVec.ofNat 8 ((s.v[x.val].toNat + nn.toNat) % 256)) }

/-- R123 to R125, bit by bit: VX takes the operation, and nothing but VX and PC changes. That VF is left alone is
decision D7. -/
def Obligations.LogicActsBitwiseWithoutFlag : Prop :=
  ∀ (x y : Reg) (s : State), ∃ b₁ b₂ b₃ : Byte,
    exec (.orVxVy x y) s = .next { s with pc := s.pc + 2, v := s.v.set x.val b₁ } ∧
    exec (.andVxVy x y) s = .next { s with pc := s.pc + 2, v := s.v.set x.val b₂ } ∧
    exec (.xorVxVy x y) s = .next { s with pc := s.pc + 2, v := s.v.set x.val b₃ } ∧
    ∀ k, k < 8 →
      b₁.getLsbD k = (s.v[x.val].getLsbD k || s.v[y.val].getLsbD k) ∧
      b₂.getLsbD k = (s.v[x.val].getLsbD k && s.v[y.val].getLsbD k) ∧
      b₃.getLsbD k = (s.v[x.val].getLsbD k != s.v[y.val].getLsbD k)

/-- R126, R133: VX takes the sum modulo 256, then VF the carry; with X = F VF holds the carry (decision D6). -/
def Obligations.AddWritesSumThenCarry : Prop :=
  ∀ (x y : Reg) (s : State), ∃ t,
    exec (.addVxVy x y) s = .next t ∧ t = { s with pc := s.pc + 2, v := t.v } ∧
    (x ≠ vF → (t.getV x).toNat = ((s.getV x).toNat + (s.getV y).toNat) % 256) ∧
    (t.getV vF).toNat = ((s.getV x).toNat + (s.getV y).toNat) / 256 ∧
    (∀ r, r ≠ x → r ≠ vF → t.getV r = s.getV r)

/-- R127, R129, R133: VX takes the difference modulo 256, then VF is 1 without a borrow, else 0; with X = F VF holds the flag
(decision D6). The order of 8XY7 is the spec's general knowledge (K6). -/
def Obligations.SubtractsWriteDifferenceThenNoBorrow : Prop :=
  ∀ (x y : Reg) (s : State), ∃ t u,
    exec (.subVxVy x y) s = .next t ∧ t = { s with pc := s.pc + 2, v := t.v } ∧
    exec (.subnVxVy x y) s = .next u ∧ u = { s with pc := s.pc + 2, v := u.v } ∧
    (x ≠ vF → ((t.getV x).toNat : Int) = ((s.getV x).toNat - (s.getV y).toNat : Int) % 256) ∧
    (x ≠ vF → ((u.getV x).toNat : Int) = ((s.getV y).toNat - (s.getV x).toNat : Int) % 256) ∧
    t.getV vF = (if (s.getV y).toNat ≤ (s.getV x).toNat then 1 else 0) ∧
    u.getV vF = (if (s.getV x).toNat ≤ (s.getV y).toNat then 1 else 0) ∧
    (∀ r, r ≠ x → r ≠ vF → t.getV r = s.getV r ∧ u.getV r = s.getV r)

/-- R128, R130, R133: the source is VY under the quirk, else VX; VX takes it halved or doubled, then VF the bit shifted out;
with X = F VF holds that bit (decision D6). -/
def Obligations.ShiftsWriteResultThenLostBit : Prop :=
  ∀ (x y : Reg) (s : State), ∃ t u,
    exec (.shrVxVy x y) s = .next t ∧ t = { s with pc := s.pc + 2, v := t.v } ∧
    exec (.shlVxVy x y) s = .next u ∧ u = { s with pc := s.pc + 2, v := u.v } ∧
    (let src := (s.getV (if s.cfg.quirkShiftUsesVY then y else x)).toNat
     (x ≠ vF → (t.getV x).toNat = src / 2 ∧ (u.getV x).toNat = 2 * src % 256) ∧
     (t.getV vF).toNat = src % 2 ∧ (u.getV vF).toNat = src / 128) ∧
    (∀ r, r ≠ x → r ≠ vF → t.getV r = s.getV r ∧ u.getV r = s.getV r)

/-- R131: VX takes the draw under the mask; the draw is the free value at the draw counter, which only this instruction moves
(log 3). That the mask is an AND is the spec's general knowledge (K7). -/
def Obligations.RandomLoadMasksTheDraw : Prop :=
  ∀ (x : Reg) (nn : Byte) (s : State),
    exec (.rndVxNN x nn) s = .next { s with
      pc := s.pc + 2, v := s.v.set x.val (Config.rnd s.drawCount &&& nn), drawCount := s.drawCount + 1 }

/-- 00_scope.md R9: only CXNN reads the draw: every other step does the same whatever the draws to come are. -/
def Obligations.OnlyRandomLoadReadsTheDraw : Prop :=
  ∀ (s : State) (n : Nat), (∀ x nn, ¬ s.Runs (.rndVxNN x nn)) →
    step { s with drawCount := n } = mapNext (fun t => { t with drawCount := n }) (step s)

/-! ### Index register and memory (42_index_memory.md) -/

/-- R150, R151: I takes NNN; I takes I + VX modulo 2^16, with no mask and no flag (decision D9). -/
def Obligations.IndexLoadsAndAdds : Prop :=
  ∀ (x : Reg) (nnn : Addr12) (s : State),
    exec (.ldINNN nnn) s = .next { s with pc := s.pc + 2, i := BitVec.ofNat 16 nnn.toNat } ∧
    exec (.addIVx x) s = .next { s with
      pc := s.pc + 2, i := BitVec.ofNat 16 ((s.i.toNat + s.v[x.val].toNat) % 0x10000) }

/-- R152: I takes the digit's sprite address; a VX above 0xF raises UnspecifiedOperand of it (decision D12). -/
def Obligations.FontAddressOfADigit : Prop :=
  ∀ (x : Reg) (s : State),
    ((s.getV x).toNat ≤ 0xF → exec (.ldFVx x) s = .next { s with
      pc := s.pc + 2, i := BitVec.ofNat 16 (s.cfg.fontBase.val + 5 * (s.getV x).toNat) }) ∧
    (0xF < (s.getV x).toNat → exec (.ldFVx x) s = .next { s with
      fault := some { error := .unspecifiedOperand (s.getV x), pc := s.pc, word := some (encode (.ldFVx x)) } })

/-- The source's "reading the address for digit 0 and the 5 bytes there", for every digit and every FONT_BASE: after reset
the five bytes at the digit's sprite address are the font's. The font bytes are the spec's general knowledge (K11). -/
def Obligations.FontSpritesStandAtTheirAddress : Prop :=
  ∀ (cfg : Config) (d : Fin 16) (x : Reg) (s t : State), s.cfg = cfg → s.mem = (State.initial cfg).mem →
    (s.getV x).toNat = d.val → exec (.ldFVx x) s = .next t →
    ∀ k, k < 5 → font[5 * d.val + k]? = some (t.byteAt (t.i.toNat + k))

/-- R153: the three decimal digits go to I, I + 1, I + 2, hundreds first (general knowledge K8), and every other byte and
field stays; an access out of range, or into the reserved range where that faults, stores nothing. -/
def Obligations.DecimalDigitsAreStored : Prop :=
  ∀ (x : Reg) (s : State), s.MemoryCanonical →
    (s.i.toNat + 2 ≤ 0xFFF → (s.cfg.reservedWriteFaults = true → 0x200 ≤ s.i.toNat) →
      ∃ t, exec (.ldBVx x) s = .next t ∧ t = { s with pc := s.pc + 2, mem := t.mem } ∧
        (t.byteAt s.i.toNat).toNat * 100 + (t.byteAt (s.i.toNat + 1)).toNat * 10 + (t.byteAt (s.i.toNat + 2)).toNat
          = (s.getV x).toNat ∧
        (t.byteAt s.i.toNat).toNat ≤ 9 ∧ (t.byteAt (s.i.toNat + 1)).toNat ≤ 9 ∧ (t.byteAt (s.i.toNat + 2)).toNat ≤ 9 ∧
        ∀ a, (a < s.i.toNat ∨ s.i.toNat + 2 < a) → t.byteAt a = s.byteAt a) ∧
    (0xFFF < s.i.toNat + 2 → exec (.ldBVx x) s = .next { s with
      fault := some { error := .outOfBounds (max s.i.toNat 0x1000), pc := s.pc, word := some (encode (.ldBVx x)) } }) ∧
    (s.cfg.reservedWriteFaults = true → s.i.toNat < 0x200 → exec (.ldBVx x) s = .next { s with
      fault := some { error := .outOfBounds s.i.toNat, pc := s.pc, word := some (encode (.ldBVx x)) } })

/-- R154: V0 to VX go to I .. I + X, I grows by X + 1 under the quirk (decision D3), and every other byte and field stays; an
access out of range, or into the reserved range where that faults, stores nothing and leaves I. -/
def Obligations.BulkStoreWritesTheRegisters : Prop :=
  ∀ (x : Reg) (s : State), s.MemoryCanonical →
    (s.i.toNat + x.val ≤ 0xFFF → (s.cfg.reservedWriteFaults = true → 0x200 ≤ s.i.toNat) →
      ∃ t, exec (.ldMemIVx x) s = .next t ∧
        t = { s with
          pc := s.pc + 2, mem := t.mem,
          i := if s.cfg.quirkLoadStoreIncrementsI then BitVec.ofNat 16 (s.i.toNat + x.val + 1) else s.i } ∧
        (∀ r : Reg, r ≤ x → t.byteAt (s.i.toNat + r.val) = s.getV r) ∧
        ∀ a, (a < s.i.toNat ∨ s.i.toNat + x.val < a) → t.byteAt a = s.byteAt a) ∧
    (0xFFF < s.i.toNat + x.val → exec (.ldMemIVx x) s = .next { s with
      fault := some { error := .outOfBounds (max s.i.toNat 0x1000), pc := s.pc, word := some (encode (.ldMemIVx x)) } }) ∧
    (s.cfg.reservedWriteFaults = true → s.i.toNat < 0x200 → exec (.ldMemIVx x) s = .next { s with
      fault := some { error := .outOfBounds s.i.toNat, pc := s.pc, word := some (encode (.ldMemIVx x)) } })

/-- R155: the bytes at I .. I + X go to V0 to VX, I grows by X + 1 under the quirk (decision D3), and every other register and
field stays; an access out of range loads nothing. Reads of the reserved range are legal. -/
def Obligations.BulkLoadFillsTheRegisters : Prop :=
  ∀ (x : Reg) (s : State),
    (s.i.toNat + x.val ≤ 0xFFF →
      ∃ t, exec (.ldVxMemI x) s = .next t ∧
        t = { s with
          pc := s.pc + 2, v := t.v,
          i := if s.cfg.quirkLoadStoreIncrementsI then BitVec.ofNat 16 (s.i.toNat + x.val + 1) else s.i } ∧
        ∀ r : Reg, t.getV r = if r ≤ x then s.byteAt (s.i.toNat + r.val) else s.getV r) ∧
    (0xFFF < s.i.toNat + x.val → exec (.ldVxMemI x) s = .next { s with
      fault := some { error := .outOfBounds (max s.i.toNat 0x1000), pc := s.pc, word := some (encode (.ldVxMemI x)) } })

/-- The source's store and load round trip: a bulk load from where a bulk store went recovers the registers, whatever the
registers held in between. -/
def Obligations.BulkLoadRecoversABulkStore : Prop :=
  ∀ (x : Reg) (s t u : State), s.MemoryCanonical → s.i.toNat + x.val ≤ 0xFFF →
    (s.cfg.reservedWriteFaults = true → 0x200 ≤ s.i.toNat) → exec (.ldMemIVx x) s = .next t →
    u.mem = t.mem → u.cfg = t.cfg → u.i = s.i →
    ∃ w, exec (.ldVxMemI x) u = .next w ∧ ∀ r : Reg, r ≤ x → w.getV r = s.getV r

/-! ### Display (43_display.md) -/

/-- R170: every pixel is unset and DrawFlag set; nothing else changes. -/
def Obligations.ClearUnsetsEveryPixel : Prop :=
  ∀ s : State, ∃ t, exec .cls s = .next t ∧ t = { s with pc := s.pc + 2, disp := t.disp, drawFlag := true } ∧
    ∀ x y, t.disp.pixel x y = false

/-- R171, as a refinement: the drawing loop flips exactly the pixels the sprite covers, in the closed form of
`State.spriteCovers`; VF is the collision, DrawFlag is set, and nothing else changes. N = 0 needs no bytes (decision D16), a
clipped pixel is no collision (D32), and bit 7 is the leftmost pixel (general knowledge K10). -/
def Obligations.DrawFlipsExactlyTheCoveredPixels : Prop :=
  ∀ (x y : Reg) (n : Nat) (s : State), n ≤ 15 → (n = 0 ∨ s.i.toNat + n - 1 ≤ 0xFFF) →
    ∃ t, exec (.drwVxVyN x y n) s = .next t ∧
      t = { s with pc := s.pc + 2, disp := t.disp, drawFlag := true, v := s.v.set 15 (t.getV vF) } ∧
      (∀ px py, t.disp.pixel px py = (s.disp.pixel px py != s.spriteCovers x y n px py)) ∧
      t.getV vF = (if ∃ px py, s.disp.pixel px py = true ∧ t.disp.pixel px py = false then 1 else 0)

/-- R171: a sprite that does not lie in memory raises OutOfBounds and draws nothing. -/
def Obligations.DrawOutOfBoundsIsFatal : Prop :=
  ∀ (x y : Reg) (n : Nat) (s : State), 0 < n → 0xFFF < s.i.toNat + n - 1 →
    exec (.drwVxVyN x y n) s = .next { s with
      fault := some {
        error := .outOfBounds (max s.i.toNat 0x1000), pc := s.pc, word := some (encode (.drwVxVyN x y n)) } }

/-- R172: two draws of the same sprite at the same place, with no display write between them, leave the display as it was; the
second collides exactly when the first set a pixel, that is, when some covered pixel was unset at the start. R172's own words
for the flag, read as "covers a pixel", differ from R171 where every covered pixel was set at the start; this is R171's
value (log 23). -/
def Obligations.DrawingTwiceRestoresTheDisplay : Prop :=
  ∀ (x y x' y' : Reg) (n : Nat) (s t u w : State), n ≤ 15 →
    exec (.drwVxVyN x y n) s = .next t →
    u.disp = t.disp → u.cfg = s.cfg → u.i = s.i → u.getV x' = s.getV x → u.getV y' = s.getV y →
    (∀ k, k < n → u.byteAt (s.i.toNat + k) = s.byteAt (s.i.toNat + k)) →
    exec (.drwVxVyN x' y' n) u = .next w →
    (n = 0 ∨ s.i.toNat + n - 1 ≤ 0xFFF) →
    w.disp = s.disp ∧
    (w.getV vF = 1 ↔ ∃ px py, s.spriteCovers x y n px py = true ∧ s.disp.pixel px py = false)

/-- 10_state.md R34: the display is mutated only inside a draw instruction: a step that changes a pixel runs 00E0 or DXYN. -/
def Obligations.OnlyDrawInstructionsChangeTheDisplay : Prop :=
  ∀ (s t : State) (px : Fin 64) (py : Fin 32), step s = .next t → t.disp.pixel px py ≠ s.disp.pixel px py →
    s.Runs .cls ∨ ∃ x y n, s.Runs (.drwVxVyN x y n)

/-! ### Input (44_input.md) -/

/-- R185, R186: the skip tests the key that VX names; a VX above 0xF raises UnspecifiedOperand of it (decision D12). -/
def Obligations.KeySkipsTestTheNamedKey : Prop :=
  ∀ (x : Reg) (s : State),
    (∀ h : (s.getV x).toNat < 16,
      exec (.skpVx x) s = .next { s with pc := s.pc + (if s.key[(s.getV x).toNat] then 4 else 2) } ∧
      exec (.sknpVx x) s = .next { s with pc := s.pc + (if s.key[(s.getV x).toNat] then 2 else 4) }) ∧
    (0xF < (s.getV x).toNat →
      exec (.skpVx x) s = .next { s with
        fault := some { error := .unspecifiedOperand (s.getV x), pc := s.pc, word := some (encode (.skpVx x)) } } ∧
      exec (.sknpVx x) s = .next { s with
        fault := some { error := .unspecifiedOperand (s.getV x), pc := s.pc, word := some (encode (.sknpVx x)) } })

/-- R187: FX0A begins the wait with a copy of the key states (decision D13), moves nothing else, PC included, and the step
returns AwaitingInput when no error is latched. -/
def Obligations.KeyWaitBeginsWithoutAdvancing : Prop :=
  ∀ (x : Reg) (s : State),
    exec (.ldVxK x) s = .next { s with wait := some { x := x, prev := s.key } } ∧
    (s.fault = none → ({ s with wait := some { x := x, prev := s.key } } : State).stepResult = .awaitingInput)

/-- R188: the poll without a newly pressed key only remembers the key states; with one, the lowest goes to VX, PC moves on by
2, the wait ends (decision D13). -/
def Obligations.KeyWaitPollTakesTheLowestNewKey : Prop :=
  ∀ (s : State) (w : KeyWait), s.fault = none → s.wait = some w →
    ((∀ k : KeyIndex, s.key[k.val] = true → w.prev[k.val] = true) →
      step s = .next { s with wait := some { x := w.x, prev := s.key } }) ∧
    (∀ k : KeyIndex, s.key[k.val] = true → w.prev[k.val] = false →
      (∀ j : KeyIndex, j < k → s.key[j.val] = true → w.prev[j.val] = true) →
      step s = .next { s with v := s.v.set w.x.val (BitVec.ofNat 8 k.val), pc := s.pc + 2, wait := none })

/-- The source's key-wait property: with the keys left alone, any number of steps after FX0A change nothing and return
AwaitingInput; after `set_key(k, true)` of a key that was up, the next step stores k in VX and moves PC on by 2.
What counts as a press is decision D13. -/
def Obligations.KeyWaitHoldsUntilAPress : Prop :=
  ∀ (x : Reg) (k : KeyIndex) (s t : State), s.fault = none → s.key[k.val] = false → exec (.ldVxK x) s = .next t →
    (∀ n : Nat, Sys2Proof.core.run n t = .next t) ∧ t.stepResult = .awaitingInput ∧ t.pc = s.pc ∧
    ∃ u, step (t.setKey k true) = .next u ∧ u.getV x = BitVec.ofNat 8 k.val ∧ u.pc = s.pc + 2 ∧ u.wait = none

/-- 10_state.md R37: only the host writes the key states; the engine only reads them, and only in EX9E, EXA1 and the key
wait. -/
def Obligations.KeysAreTheHostsAndReadByThree : Prop :=
  ∀ (s : State) (keys : KeyStates),
    (∀ (e : HostEvent) (t : State), s.onEvent e = .next t → t.key ≠ s.key →
      (∃ k p, e = .setKey k p ∧ t = { s with key := s.key.set k.val p }) ∨ ∃ bytes, e = .load bytes) ∧
    ((s.fault ≠ none ∨ s.wait = none) →
      (∀ x, ¬ s.Runs (.skpVx x) ∧ ¬ s.Runs (.sknpVx x) ∧ ¬ s.Runs (.ldVxK x)) →
      step { s with key := keys } = mapNext (fun t => { t with key := keys }) (step s))

/-! ### Timers (45_timers.md) -/

/-- R200 to R202: FX07 reads DT, FX15 and FX18 write DT and ST; nothing else changes. -/
def Obligations.TimerInstructionsMoveTheirTimer : Prop :=
  ∀ (x : Reg) (s : State),
    exec (.ldVxDT x) s = .next { s with pc := s.pc + 2, v := s.v.set x.val s.dt } ∧
    exec (.ldDTVx x) s = .next { s with pc := s.pc + 2, dt := s.v[x.val] } ∧
    exec (.ldSTVx x) s = .next { s with pc := s.pc + 2, st := s.v[x.val] }

/-- 10_state.md R32: DT is written by FX15, read by FX07, and decremented by the tick, clamped at 0. -/
def Obligations.DelayTimerHasOneWriterOneReader : Prop :=
  ∀ (s : State) (d : Byte),
    (∀ t, step s = .next t → t.dt ≠ s.dt → ∃ x, s.Runs (.ldDTVx x) ∧ t.dt = s.getV x) ∧
    (∀ x, exec (.ldVxDT x) s = .next { s with pc := s.pc + 2, v := s.v.set x.val s.dt }) ∧
    ((∀ x, ¬ s.Runs (.ldVxDT x)) →
      mapNext (fun t => { t with dt := 0 }) (step { s with dt := d }) = mapNext (fun t => { t with dt := 0 }) (step s)) ∧
    s.tick.dt.toNat = s.dt.toNat - 1

/-- 10_state.md R33: ST is written by FX18 and decremented by the tick; no instruction reads it; the sound query does. What
the query answers is 45_timers.md R204, decision D33. -/
def Obligations.SoundTimerIsReadOnlyByTheHost : Prop :=
  ∀ (s : State) (d : Byte),
    (∀ t, step s = .next t → t.st ≠ s.st → ∃ x, s.Runs (.ldSTVx x) ∧ t.st = s.getV x) ∧
    mapNext (fun t => { t with st := 0 }) (step { s with st := d }) = mapNext (fun t => { t with st := 0 }) (step s) ∧
    s.tick.st.toNat = s.st.toNat - 1 ∧
    (s.soundActive = true ↔ s.st ≠ 0)

/-- R203 and the source's timer example: n ticks bring a timer down by n, not below 0, and touch nothing but the timers,
whatever the engine is doing. That the tick runs after a fatal error is decision D18. -/
def Obligations.TicksCountDownToZero : Prop :=
  ∀ (s : State) (n : Nat), ∃ t, s.onEvents (List.replicate n .tick) = .next t ∧
    t = { s with dt := t.dt, st := t.st } ∧ t.dt.toNat = s.dt.toNat - n ∧ t.st.toNat = s.st.toNat - n

/-! ### The host interface and reset -/

/-- 60_exceptions.md R220, R221, 10_state.md R35, R36: `set_key` writes its key and nothing else; `snapshot` returns the
display and changes nothing but DrawFlag, which it clears (decision D24, log 12). -/
def Obligations.HostOperationsTouchOnlyTheirField : Prop :=
  ∀ (s : State) (k : KeyIndex) (p : Bool),
    (∃ keys, s.setKey k p = { s with key := keys } ∧ ∀ j : KeyIndex, keys[j.val] = if j = k then p else s.key[j.val]) ∧
    s.snapshot = (s.disp, { s with drawFlag := false })

/-- 70_reset_and_hazards.md R241: a `load` that fits leaves the reset state of the same configuration with the image from
0x200 upward, from any state; one that does not changes nothing (60_exceptions.md R228). Decisions D14, D26; the draw counter
is the model's own (log 3). -/
def Obligations.LoadResetsAndPlacesTheImage : Prop :=
  ∀ (s : State) (bytes : List Byte),
    (bytes.length ≤ 3584 → ∃ t, s.load bytes = (.ok, t) ∧
      t = { State.initial s.cfg with mem := t.mem, drawCount := s.drawCount } ∧
      ∀ a, t.byteAt a =
        if 0x200 ≤ a ∧ a < 0x200 + bytes.length then bytes.getD (a - 0x200) 0 else (State.initial s.cfg).byteAt a) ∧
    (3584 < bytes.length → s.load bytes = (.programTooLarge bytes.length, s))

/-- 10_state.md R41, 70_reset_and_hazards.md R240, the values the source lists: the font at FONT_BASE and every other byte zero,
PC 0x200, stack empty, timers zero, display and input cleared, and no error latched (decision D18). At every configuration. -/
def Obligations.ResetLeavesTheListedValues : Prop :=
  ∀ cfg : Config,
    (∀ a, (State.initial cfg).byteAt a =
      if cfg.fontBase.val ≤ a ∧ a < cfg.fontBase.val + 80 then font.getD (a - cfg.fontBase.val) 0 else 0) ∧
    (State.initial cfg).pc = 0x200 ∧ (State.initial cfg).sp = 0 ∧ (State.initial cfg).dt = 0 ∧
    (State.initial cfg).st = 0 ∧ (∀ x y, (State.initial cfg).disp.pixel x y = false) ∧
    (∀ k : KeyIndex, (State.initial cfg).key[k.val] = false) ∧ (State.initial cfg).fault = none

/-! ### Frames over all instructions -/

/-- 10_state.md R21, R22: an instruction leaves every register alone but its destinations and, where R22 lists it, VF
(decisions D7 to D9). -/
def Obligations.RegistersOutsideTheDestinationsStay : Prop :=
  ∀ (i : Instr) (s t : State) (r : Reg), exec i s = .next t → i.mayWrite r = false → t.getV r = s.getV r

/-- 20_memory.md R58: an instruction leaves every byte alone but those it stores, from the address I upward: FX33 three, FX55
X + 1, and no other instruction any. -/
def Obligations.BytesOutsideTheStoreStay : Prop :=
  ∀ (i : Instr) (s t : State), s.MemoryCanonical → exec i s = .next t →
    ∀ a, (a < s.indexAddr ∨ s.indexAddr + i.storeLength ≤ a) → t.byteAt a = s.byteAt a

/-- 10_state.md R24, R28, R36, R38, 00_scope.md R8, R9: who writes I, the stack, DrawFlag, Wait, the draw counter (the model's
own, log 3) and the configuration (log 1) when an instruction runs. Decisions D3, D9, D22, D24. -/
def Obligations.SpecialStateHasItsWriters : Prop :=
  ∀ (i : Instr) (s t : State), exec i s = .next t →
    t.cfg = s.cfg ∧
    (t.i ≠ s.i → (∃ nnn, i = .ldINNN nnn) ∨ (∃ x, i = .addIVx x) ∨ (∃ x, i = .ldFVx x) ∨
      (s.cfg.quirkLoadStoreIncrementsI = true ∧ ∃ x, i = .ldMemIVx x ∨ i = .ldVxMemI x)) ∧
    (t.sp ≠ s.sp ∨ t.stack ≠ s.stack → i = .ret ∨ ∃ nnn, i = .callNNN nnn) ∧
    (t.drawFlag ≠ s.drawFlag → i = .cls ∨ ∃ x y n, i = .drwVxVyN x y n) ∧
    (t.wait ≠ s.wait → ∃ x, i = .ldVxK x) ∧
    (t.drawCount ≠ s.drawCount → ∃ x nn, i = .rndVxNN x nn)

/-! ### Invariants -/

/-- The invariants hold at reset, at every configuration. -/
def Obligations.ResetMeetsTheInvariants : Prop := ∀ cfg : Config, (State.initial cfg).Inv

/-- Every step keeps the invariants: the stack bounds of R28, R27's bound on PC, canonical memory, a pending wait at its FX0A
word, and a precise record. -/
def Obligations.StepKeepsTheInvariants : Prop :=
  ∀ s t : State, s.Inv → step s = .next t → t.Inv

/-- From every state with the invariants every move of the host, a step among them, answers a next state, with no fault and no
refusal, and keeps them and the configuration (00_scope.md R8). -/
def Obligations.HostMovesKeepTheInvariants : Prop :=
  ∀ (s : State) (e : HostEvent), s.Inv → ∃ t, s.onEvent e = .next t ∧ t.Inv ∧ t.cfg = s.cfg

/-- 60_exceptions.md R224: from reset, at every configuration, every schedule of host moves runs to its end, with no fault and
no refusal, and ends in a state with the invariants. That the order of the moves is free is decision D27 (log 11). -/
def Obligations.EveryScheduleRunsToItsEnd : Prop :=
  ∀ (cfg : Config) (events : List HostEvent), ∃ t, (State.initial cfg).onEvents events = .next t ∧ t.Inv ∧ t.cfg = cfg
end

