-- ==== Sys2Proof/Laws/Decode.lean ====
section
/-! SUPPORT. The fields of an encoded word are the fields it was made of, and a word is made of its fields
(30_encoding.md R71). -/

namespace Sys2Proof

theorem regField_fieldX (w : Word) : regField (fieldX w) = w.extractLsb' 8 4 := rfl
theorem regField_fieldY (w : Word) : regField (fieldY w) = w.extractLsb' 4 4 := rfl

/-! ### The fields of an encoding -/

@[simp] theorem fieldOp_encodeNNN (op : BitVec 4) (n : Addr12) : fieldOp (encodeNNN op n) = op := by
  apply BitVec.eq_of_getLsbD_eq
  intro k hk
  simp only [fieldOp, encodeNNN, BitVec.getLsbD_extractLsb', BitVec.getLsbD_append]
  interval_cases k <;> simp

@[simp] theorem fieldNNN_encodeNNN (op : BitVec 4) (n : Addr12) : fieldNNN (encodeNNN op n) = n := by
  apply BitVec.eq_of_getLsbD_eq
  intro k hk
  simp only [fieldNNN, encodeNNN, BitVec.getLsbD_extractLsb', BitVec.getLsbD_append]
  interval_cases k <;> simp

@[simp] theorem fieldOp_encodeXNN (op : BitVec 4) (x : Reg) (n : Byte) : fieldOp (encodeXNN op x n) = op := by
  apply BitVec.eq_of_getLsbD_eq
  intro k hk
  simp only [fieldOp, encodeXNN, BitVec.getLsbD_extractLsb', BitVec.getLsbD_append]
  interval_cases k <;> simp

@[simp] theorem fieldX_encodeXNN (op : BitVec 4) (x : Reg) (n : Byte) : fieldX (encodeXNN op x n) = x := by
  have : (encodeXNN op x n).extractLsb' 8 4 = BitVec.ofFin x := by
    apply BitVec.eq_of_getLsbD_eq
    intro k hk
    simp only [encodeXNN, regField, BitVec.getLsbD_extractLsb', BitVec.getLsbD_append]
    interval_cases k <;> simp
  simp [fieldX, this]

@[simp] theorem fieldNN_encodeXNN (op : BitVec 4) (x : Reg) (n : Byte) : fieldNN (encodeXNN op x n) = n := by
  apply BitVec.eq_of_getLsbD_eq
  intro k hk
  simp only [fieldNN, encodeXNN, BitVec.getLsbD_extractLsb', BitVec.getLsbD_append]
  interval_cases k <;> simp

@[simp] theorem fieldOp_encodeXYN (op : BitVec 4) (x y : Reg) (n : BitVec 4) : fieldOp (encodeXYN op x y n) = op := by
  apply BitVec.eq_of_getLsbD_eq
  intro k hk
  simp only [fieldOp, encodeXYN, BitVec.getLsbD_extractLsb', BitVec.getLsbD_append]
  interval_cases k <;> simp

@[simp] theorem fieldX_encodeXYN (op : BitVec 4) (x y : Reg) (n : BitVec 4) : fieldX (encodeXYN op x y n) = x := by
  have : (encodeXYN op x y n).extractLsb' 8 4 = BitVec.ofFin x := by
    apply BitVec.eq_of_getLsbD_eq
    intro k hk
    simp only [encodeXYN, regField, BitVec.getLsbD_extractLsb', BitVec.getLsbD_append]
    interval_cases k <;> simp
  simp [fieldX, this]

@[simp] theorem fieldY_encodeXYN (op : BitVec 4) (x y : Reg) (n : BitVec 4) : fieldY (encodeXYN op x y n) = y := by
  have : (encodeXYN op x y n).extractLsb' 4 4 = BitVec.ofFin y := by
    apply BitVec.eq_of_getLsbD_eq
    intro k hk
    simp only [encodeXYN, regField, BitVec.getLsbD_extractLsb', BitVec.getLsbD_append]
    interval_cases k <;> simp
  simp [fieldY, this]

@[simp] theorem fieldN_encodeXYN (op : BitVec 4) (x y : Reg) (n : BitVec 4) : fieldN (encodeXYN op x y n) = n := by
  apply BitVec.eq_of_getLsbD_eq
  intro k hk
  simp only [fieldN, encodeXYN, BitVec.getLsbD_extractLsb', BitVec.getLsbD_append]
  interval_cases k <;> simp

/-! ### A word is made of its fields -/

theorem encodeNNN_fields (w : Word) : encodeNNN (fieldOp w) (fieldNNN w) = w := by
  apply BitVec.eq_of_getLsbD_eq
  intro k hk
  simp only [fieldOp, fieldNNN, encodeNNN, BitVec.getLsbD_extractLsb', BitVec.getLsbD_append]
  interval_cases k <;> simp

theorem encodeXNN_fields (w : Word) : encodeXNN (fieldOp w) (fieldX w) (fieldNN w) = w := by
  apply BitVec.eq_of_getLsbD_eq
  intro k hk
  simp only [fieldOp, fieldNN, encodeXNN, regField_fieldX, BitVec.getLsbD_extractLsb', BitVec.getLsbD_append]
  interval_cases k <;> simp

theorem encodeXYN_fields (w : Word) : encodeXYN (fieldOp w) (fieldX w) (fieldY w) (fieldN w) = w := by
  apply BitVec.eq_of_getLsbD_eq
  intro k hk
  simp only [fieldOp, fieldN, encodeXYN, regField_fieldX, regField_fieldY, BitVec.getLsbD_extractLsb',
    BitVec.getLsbD_append]
  interval_cases k <;> simp

/-- The two bytes of a word make the word (R55). -/
@[simp] theorem wordOfBytes_bytes (w : Word) : wordOfBytes (highByte w) (lowByte w) = w := by
  apply BitVec.eq_of_getLsbD_eq
  intro k hk
  simp only [wordOfBytes, highByte, lowByte, BitVec.getLsbD_extractLsb', BitVec.getLsbD_append]
  interval_cases k <;> simp

end Sys2Proof
end

