-- ==== Sys2Proof/Laws/Memory.lean ====
section
/-! SUPPORT. The laws of memory: read after write, the canonical form is kept, and equal contents are equal memories. -/

namespace Sys2Proof.Machine

variable (fb : Fin 0x1B1)

/-! ### The reset contents -/

@[simp] theorem font_length : font.length = 80 := by decide

/-- Outside the font the reset contents are zero (70_reset_and_hazards.md R240). -/
theorem initialByte_outside_font (a : Nat) (h : a < fb.val ∨ fb.val + 80 ≤ a) : initialByte fb a = 0 := by
  unfold initialByte
  split
  · rfl
  · rw [List.getD_eq_default]
    rw [font_length]; omega

/-- The program area is zero until a load (R240). -/
theorem initialByte_program_area (a : Nat) (h : 0x200 ≤ a) : initialByte fb a = 0 :=
  initialByte_outside_font fb a (.inr (by omega))

/-! ### The canonical form -/

theorem Memory.wfFrom_nil (lo : Nat) : Memory.wfFrom fb lo [] = true := rfl

theorem Memory.wfFrom_cons (lo k : Nat) (b : Byte) (m : Memory) :
    Memory.wfFrom fb lo ((k, b) :: m) = true ↔
      lo ≤ k ∧ k < 0x1000 ∧ b ≠ initialByte fb k ∧ Memory.wfFrom fb (k + 1) m = true := by
  simp [Memory.wfFrom, and_assoc]

/-- A memory canonical from an address is canonical from any lower one. -/
theorem Memory.wfFrom_mono {lo lo' : Nat} (h : lo' ≤ lo) {m : Memory} (hm : Memory.wfFrom fb lo m = true) :
    Memory.wfFrom fb lo' m = true := by
  cases m with
  | nil => rfl
  | cons c m =>
    obtain ⟨k, b⟩ := c
    rw [Memory.wfFrom_cons] at hm ⊢
    exact ⟨by omega, hm.2⟩

/-- Below the first listed address a canonical memory reads as the reset contents. -/
theorem Memory.read_below {lo : Nat} {m : Memory} (hm : Memory.wfFrom fb lo m = true) {a : Nat} (h : a < lo) :
    m.read fb a = initialByte fb a := by
  induction m generalizing lo with
  | nil => rfl
  | cons c m ih =>
    obtain ⟨k, b⟩ := c
    rw [Memory.wfFrom_cons] at hm
    rw [Memory.read, if_neg (by omega)]
    exact ih hm.2.2.2 (by omega)

/-- Writing a byte keeps the canonical form. -/
theorem Memory.wfFrom_write {lo a : Nat} {m : Memory} (b : Byte) (hm : Memory.wfFrom fb lo m = true)
    (hlo : lo ≤ a) (ha : a < 0x1000) : Memory.wfFrom fb lo (m.write fb a b) = true := by
  induction m generalizing lo with
  | nil =>
    rw [Memory.write]
    split
    · rfl
    · rename_i hb
      exact (Memory.wfFrom_cons ..).2 ⟨hlo, ha, hb, rfl⟩
  | cons c m ih =>
    obtain ⟨k, c⟩ := c
    have hm' := (Memory.wfFrom_cons ..).1 hm
    rw [Memory.write]
    split
    · split
      · exact hm
      · rename_i hb
        exact (Memory.wfFrom_cons ..).2 ⟨hlo, ha, hb, (Memory.wfFrom_cons ..).2 ⟨by omega, hm'.2⟩⟩
    · split
      · subst_vars
        split
        · exact Memory.wfFrom_mono fb (by omega) hm'.2.2.2
        · rename_i hb
          exact (Memory.wfFrom_cons ..).2 ⟨hlo, ha, hb, hm'.2.2.2⟩
      · exact (Memory.wfFrom_cons ..).2 ⟨hm'.1, hm'.2.1, hm'.2.2.1, ih hm'.2.2.2 (by omega)⟩

/-- Writing a byte of the address space keeps the canonical form. -/
theorem Memory.wf_write {m : Memory} {a : Nat} (b : Byte) (hm : m.wf fb = true) (ha : a < 0x1000) :
    (m.write fb a b).wf fb = true :=
  Memory.wfFrom_write fb b hm (by omega) ha

/-- Writing bytes of the address space keeps the canonical form. -/
theorem Memory.wf_writeBytes {m : Memory} {a : Nat} (bs : List Byte) (hm : m.wf fb = true)
    (ha : a + bs.length ≤ 0x1000) : (m.writeBytes fb a bs).wf fb = true := by
  induction bs generalizing m a with
  | nil => exact hm
  | cons b bs ih =>
    rw [List.length_cons] at ha
    exact ih (Memory.wf_write fb b hm (by omega)) (by omega)

/-! ### Reading and writing -/

/-- In a canonical memory a byte reads as written, and every other byte as before. -/
theorem Memory.read_write_from {lo a : Nat} {m : Memory} (b : Byte) (hm : Memory.wfFrom fb lo m = true) (c : Nat) :
    (m.write fb a b).read fb c = if c = a then b else m.read fb c := by
  induction m generalizing lo with
  | nil =>
    rw [Memory.write]
    by_cases hc : c = a
    · subst hc; split <;> simp_all [Memory.read]
    · split <;> simp [Memory.read, Ne.symm hc]
  | cons d m ih =>
    obtain ⟨k, d⟩ := d
    have hm' := (Memory.wfFrom_cons ..).1 hm
    have below : ∀ e, e ≤ k → Memory.read fb m e = initialByte fb e := fun e he =>
      Memory.read_below fb hm'.2.2.2 (by omega)
    rw [Memory.write]
    split
    · split
      · by_cases hc : c = a
        · subst hc
          rw [if_pos rfl, Memory.read, if_neg (by omega), below c (by omega)]
          exact Eq.symm ‹_›
        · rw [if_neg hc]
      · by_cases hc : c = a
        · subst hc; simp only [Memory.read, if_true]
        · rw [Memory.read, if_neg (Ne.symm hc), if_neg hc]
    · split
      · subst_vars
        split
        · by_cases hc : c = k
          · subst hc; rw [if_pos rfl, below c (by omega)]; exact Eq.symm ‹_›
          · rw [if_neg hc, Memory.read, if_neg (Ne.symm hc)]
        · by_cases hc : c = k
          · subst hc; simp only [Memory.read, if_true]
          · rw [Memory.read, Memory.read, if_neg (Ne.symm hc), if_neg hc, if_neg (Ne.symm hc)]
      · rw [Memory.read, Memory.read, ih hm'.2.2.2]
        by_cases hc : c = a
        · subst hc; simp only [if_true]; rw [if_neg (by omega)]
        · rw [if_neg hc, if_neg hc]

/-- A byte reads as written, and every other byte as before. -/
theorem Memory.read_write {m : Memory} (hm : m.wf fb = true) (a c : Nat) (b : Byte) :
    (m.write fb a b).read fb c = if c = a then b else m.read fb c :=
  Memory.read_write_from fb b hm c

/-- After writing a run of bytes, its bytes read as written and every other byte as before. -/
theorem Memory.read_writeBytes {m : Memory} {a : Nat} (bs : List Byte) (hm : m.wf fb = true)
    (ha : a + bs.length ≤ 0x1000) (c : Nat) :
    (m.writeBytes fb a bs).read fb c =
      if a ≤ c ∧ c < a + bs.length then bs.getD (c - a) 0 else m.read fb c := by
  induction bs generalizing m a with
  | nil => rw [if_neg (by simp only [List.length_nil]; omega)]; rfl
  | cons b bs ih =>
    rw [List.length_cons] at ha ⊢
    rw [Memory.writeBytes, ih (Memory.wf_write fb b hm (by omega)) (by omega), Memory.read_write fb hm]
    by_cases hc : c = a
    · subst hc
      rw [if_neg (by omega), if_pos rfl, if_pos (by omega), Nat.sub_self]; rfl
    · by_cases h : a + 1 ≤ c ∧ c < a + 1 + bs.length
      · rw [if_pos h, if_pos (by omega), show c - a = (c - (a + 1)) + 1 by omega]; rfl
      · rw [if_neg h, if_neg hc, if_neg (by omega)]

@[simp] theorem Memory.length_readBytes (m : Memory) (a n : Nat) : (m.readBytes fb a n).length = n := by
  induction n generalizing a with
  | zero => rfl
  | succ n ih => rw [Memory.readBytes, List.length_cons, ih]

/-- The k-th byte of a run is the byte at its address (20_memory.md R52). -/
theorem Memory.getD_readBytes (m : Memory) (a n k : Nat) (d : Byte) (h : k < n) :
    (m.readBytes fb a n).getD k d = m.read fb (a + k) := by
  induction n generalizing a k with
  | zero => omega
  | succ n ih =>
    cases k with
    | zero => rfl
    | succ k =>
      rw [Memory.readBytes, List.getD_cons_succ, ih (a + 1) k (by omega)]
      congr 1; omega

/-- Equal contents are equal memories: the form is canonical. -/
theorem Memory.ext_of_wf {lo : Nat} {m m' : Memory} (hm : Memory.wfFrom fb lo m = true)
    (hm' : Memory.wfFrom fb lo m' = true) (h : ∀ a, m.read fb a = m'.read fb a) : m = m' := by
  induction m generalizing lo m' with
  | nil =>
    cases m' with
    | nil => rfl
    | cons c' m' =>
      obtain ⟨k, b⟩ := c'
      have := h k
      rw [Memory.read, Memory.read, if_pos rfl] at this
      exact absurd this.symm ((Memory.wfFrom_cons ..).1 hm').2.2.1
  | cons c m ih =>
    obtain ⟨k, b⟩ := c
    have hc := (Memory.wfFrom_cons ..).1 hm
    cases m' with
    | nil =>
      have := h k
      rw [Memory.read, Memory.read, if_pos rfl] at this
      exact absurd this hc.2.2.1
    | cons c' m' =>
      obtain ⟨k', b'⟩ := c'
      have hc' := (Memory.wfFrom_cons ..).1 hm'
      have hk : k = k' := by
        rcases Nat.lt_trichotomy k k' with hlt | heq | hgt
        · have := h k
          rw [Memory.read, Memory.read, if_pos rfl, if_neg (by omega),
            Memory.read_below fb hc'.2.2.2 (by omega)] at this
          exact absurd this hc.2.2.1
        · exact heq
        · have := h k'
          rw [Memory.read, Memory.read, if_neg (by omega), if_pos rfl,
            Memory.read_below fb hc.2.2.2 (by omega)] at this
          exact absurd this.symm hc'.2.2.1
      subst hk
      have hb : b = b' := by simpa [Memory.read] using h k
      subst hb
      have : m = m' := ih hc.2.2.2 hc'.2.2.2 fun a => by
        by_cases ha : a = k
        · subst ha
          rw [Memory.read_below fb hc.2.2.2 (by omega), Memory.read_below fb hc'.2.2.2 (by omega)]
        · simpa [Memory.read, Ne.symm ha] using h a
      rw [this]

end Sys2Proof.Machine
end

