-- ==== Sys2Proof/Laws/State.lean ====
section
/-! SUPPORT. One lemma per field per update of the state, true by rfl, so that no later proof unfolds an update. -/

namespace Sys2Proof.Machine

/-! ### `State.setV` -/

@[simp] theorem State.setV_cfg (s : State) (x : Reg) (b : Byte) : (s.setV x b).cfg = s.cfg := rfl
@[simp] theorem State.setV_mem (s : State) (x : Reg) (b : Byte) : (s.setV x b).mem = s.mem := rfl
@[simp] theorem State.setV_v (s : State) (x : Reg) (b : Byte) : (s.setV x b).v = s.v.set x.val b := rfl
@[simp] theorem State.setV_i (s : State) (x : Reg) (b : Byte) : (s.setV x b).i = s.i := rfl
@[simp] theorem State.setV_pc (s : State) (x : Reg) (b : Byte) : (s.setV x b).pc = s.pc := rfl
@[simp] theorem State.setV_sp (s : State) (x : Reg) (b : Byte) : (s.setV x b).sp = s.sp := rfl
@[simp] theorem State.setV_stack (s : State) (x : Reg) (b : Byte) : (s.setV x b).stack = s.stack := rfl
@[simp] theorem State.setV_dt (s : State) (x : Reg) (b : Byte) : (s.setV x b).dt = s.dt := rfl
@[simp] theorem State.setV_st (s : State) (x : Reg) (b : Byte) : (s.setV x b).st = s.st := rfl
@[simp] theorem State.setV_disp (s : State) (x : Reg) (b : Byte) : (s.setV x b).disp = s.disp := rfl
@[simp] theorem State.setV_drawFlag (s : State) (x : Reg) (b : Byte) : (s.setV x b).drawFlag = s.drawFlag := rfl
@[simp] theorem State.setV_key (s : State) (x : Reg) (b : Byte) : (s.setV x b).key = s.key := rfl
@[simp] theorem State.setV_wait (s : State) (x : Reg) (b : Byte) : (s.setV x b).wait = s.wait := rfl
@[simp] theorem State.setV_fault (s : State) (x : Reg) (b : Byte) : (s.setV x b).fault = s.fault := rfl
@[simp] theorem State.setV_drawCount (s : State) (x : Reg) (b : Byte) : (s.setV x b).drawCount = s.drawCount := rfl

/-! ### `State.setFlag` -/

@[simp] theorem State.setFlag_cfg (s : State) (c : Bool) : (s.setFlag c).cfg = s.cfg := rfl
@[simp] theorem State.setFlag_mem (s : State) (c : Bool) : (s.setFlag c).mem = s.mem := rfl
@[simp] theorem State.setFlag_v (s : State) (c : Bool) : (s.setFlag c).v = s.v.set 15 (if c then 1 else 0) := rfl
@[simp] theorem State.setFlag_i (s : State) (c : Bool) : (s.setFlag c).i = s.i := rfl
@[simp] theorem State.setFlag_pc (s : State) (c : Bool) : (s.setFlag c).pc = s.pc := rfl
@[simp] theorem State.setFlag_sp (s : State) (c : Bool) : (s.setFlag c).sp = s.sp := rfl
@[simp] theorem State.setFlag_stack (s : State) (c : Bool) : (s.setFlag c).stack = s.stack := rfl
@[simp] theorem State.setFlag_dt (s : State) (c : Bool) : (s.setFlag c).dt = s.dt := rfl
@[simp] theorem State.setFlag_st (s : State) (c : Bool) : (s.setFlag c).st = s.st := rfl
@[simp] theorem State.setFlag_disp (s : State) (c : Bool) : (s.setFlag c).disp = s.disp := rfl
@[simp] theorem State.setFlag_drawFlag (s : State) (c : Bool) : (s.setFlag c).drawFlag = s.drawFlag := rfl
@[simp] theorem State.setFlag_key (s : State) (c : Bool) : (s.setFlag c).key = s.key := rfl
@[simp] theorem State.setFlag_wait (s : State) (c : Bool) : (s.setFlag c).wait = s.wait := rfl
@[simp] theorem State.setFlag_fault (s : State) (c : Bool) : (s.setFlag c).fault = s.fault := rfl
@[simp] theorem State.setFlag_drawCount (s : State) (c : Bool) : (s.setFlag c).drawCount = s.drawCount := rfl

/-! ### `State.setI` -/

@[simp] theorem State.setI_cfg (s : State) (a : Word) : (s.setI a).cfg = s.cfg := rfl
@[simp] theorem State.setI_mem (s : State) (a : Word) : (s.setI a).mem = s.mem := rfl
@[simp] theorem State.setI_v (s : State) (a : Word) : (s.setI a).v = s.v := rfl
@[simp] theorem State.setI_i (s : State) (a : Word) : (s.setI a).i = a := rfl
@[simp] theorem State.setI_pc (s : State) (a : Word) : (s.setI a).pc = s.pc := rfl
@[simp] theorem State.setI_sp (s : State) (a : Word) : (s.setI a).sp = s.sp := rfl
@[simp] theorem State.setI_stack (s : State) (a : Word) : (s.setI a).stack = s.stack := rfl
@[simp] theorem State.setI_dt (s : State) (a : Word) : (s.setI a).dt = s.dt := rfl
@[simp] theorem State.setI_st (s : State) (a : Word) : (s.setI a).st = s.st := rfl
@[simp] theorem State.setI_disp (s : State) (a : Word) : (s.setI a).disp = s.disp := rfl
@[simp] theorem State.setI_drawFlag (s : State) (a : Word) : (s.setI a).drawFlag = s.drawFlag := rfl
@[simp] theorem State.setI_key (s : State) (a : Word) : (s.setI a).key = s.key := rfl
@[simp] theorem State.setI_wait (s : State) (a : Word) : (s.setI a).wait = s.wait := rfl
@[simp] theorem State.setI_fault (s : State) (a : Word) : (s.setI a).fault = s.fault := rfl
@[simp] theorem State.setI_drawCount (s : State) (a : Word) : (s.setI a).drawCount = s.drawCount := rfl

/-! ### `State.setPC` -/

@[simp] theorem State.setPC_cfg (s : State) (a : Word) : (s.setPC a).cfg = s.cfg := rfl
@[simp] theorem State.setPC_mem (s : State) (a : Word) : (s.setPC a).mem = s.mem := rfl
@[simp] theorem State.setPC_v (s : State) (a : Word) : (s.setPC a).v = s.v := rfl
@[simp] theorem State.setPC_i (s : State) (a : Word) : (s.setPC a).i = s.i := rfl
@[simp] theorem State.setPC_pc (s : State) (a : Word) : (s.setPC a).pc = a := rfl
@[simp] theorem State.setPC_sp (s : State) (a : Word) : (s.setPC a).sp = s.sp := rfl
@[simp] theorem State.setPC_stack (s : State) (a : Word) : (s.setPC a).stack = s.stack := rfl
@[simp] theorem State.setPC_dt (s : State) (a : Word) : (s.setPC a).dt = s.dt := rfl
@[simp] theorem State.setPC_st (s : State) (a : Word) : (s.setPC a).st = s.st := rfl
@[simp] theorem State.setPC_disp (s : State) (a : Word) : (s.setPC a).disp = s.disp := rfl
@[simp] theorem State.setPC_drawFlag (s : State) (a : Word) : (s.setPC a).drawFlag = s.drawFlag := rfl
@[simp] theorem State.setPC_key (s : State) (a : Word) : (s.setPC a).key = s.key := rfl
@[simp] theorem State.setPC_wait (s : State) (a : Word) : (s.setPC a).wait = s.wait := rfl
@[simp] theorem State.setPC_fault (s : State) (a : Word) : (s.setPC a).fault = s.fault := rfl
@[simp] theorem State.setPC_drawCount (s : State) (a : Word) : (s.setPC a).drawCount = s.drawCount := rfl

/-! ### `State.advancePC` -/

@[simp] theorem State.advancePC_cfg (s : State) : s.advancePC.cfg = s.cfg := rfl
@[simp] theorem State.advancePC_mem (s : State) : s.advancePC.mem = s.mem := rfl
@[simp] theorem State.advancePC_v (s : State) : s.advancePC.v = s.v := rfl
@[simp] theorem State.advancePC_i (s : State) : s.advancePC.i = s.i := rfl
@[simp] theorem State.advancePC_pc (s : State) : s.advancePC.pc = s.pc + 2 := rfl
@[simp] theorem State.advancePC_sp (s : State) : s.advancePC.sp = s.sp := rfl
@[simp] theorem State.advancePC_stack (s : State) : s.advancePC.stack = s.stack := rfl
@[simp] theorem State.advancePC_dt (s : State) : s.advancePC.dt = s.dt := rfl
@[simp] theorem State.advancePC_st (s : State) : s.advancePC.st = s.st := rfl
@[simp] theorem State.advancePC_disp (s : State) : s.advancePC.disp = s.disp := rfl
@[simp] theorem State.advancePC_drawFlag (s : State) : s.advancePC.drawFlag = s.drawFlag := rfl
@[simp] theorem State.advancePC_key (s : State) : s.advancePC.key = s.key := rfl
@[simp] theorem State.advancePC_wait (s : State) : s.advancePC.wait = s.wait := rfl
@[simp] theorem State.advancePC_fault (s : State) : s.advancePC.fault = s.fault := rfl
@[simp] theorem State.advancePC_drawCount (s : State) : s.advancePC.drawCount = s.drawCount := rfl

/-! ### `State.skip` -/

@[simp] theorem State.skip_cfg (s : State) : s.skip.cfg = s.cfg := rfl
@[simp] theorem State.skip_mem (s : State) : s.skip.mem = s.mem := rfl
@[simp] theorem State.skip_v (s : State) : s.skip.v = s.v := rfl
@[simp] theorem State.skip_i (s : State) : s.skip.i = s.i := rfl
@[simp] theorem State.skip_pc (s : State) : s.skip.pc = s.pc + 2 := rfl
@[simp] theorem State.skip_sp (s : State) : s.skip.sp = s.sp := rfl
@[simp] theorem State.skip_stack (s : State) : s.skip.stack = s.stack := rfl
@[simp] theorem State.skip_dt (s : State) : s.skip.dt = s.dt := rfl
@[simp] theorem State.skip_st (s : State) : s.skip.st = s.st := rfl
@[simp] theorem State.skip_disp (s : State) : s.skip.disp = s.disp := rfl
@[simp] theorem State.skip_drawFlag (s : State) : s.skip.drawFlag = s.drawFlag := rfl
@[simp] theorem State.skip_key (s : State) : s.skip.key = s.key := rfl
@[simp] theorem State.skip_wait (s : State) : s.skip.wait = s.wait := rfl
@[simp] theorem State.skip_fault (s : State) : s.skip.fault = s.fault := rfl
@[simp] theorem State.skip_drawCount (s : State) : s.skip.drawCount = s.drawCount := rfl

/-! ### `State.takeFatal` -/

@[simp] theorem State.takeFatal_cfg (s : State) (e : FatalError) (w : Option Word) : (s.takeFatal e w).cfg = s.cfg := rfl
@[simp] theorem State.takeFatal_mem (s : State) (e : FatalError) (w : Option Word) : (s.takeFatal e w).mem = s.mem := rfl
@[simp] theorem State.takeFatal_v (s : State) (e : FatalError) (w : Option Word) : (s.takeFatal e w).v = s.v := rfl
@[simp] theorem State.takeFatal_i (s : State) (e : FatalError) (w : Option Word) : (s.takeFatal e w).i = s.i := rfl
@[simp] theorem State.takeFatal_pc (s : State) (e : FatalError) (w : Option Word) : (s.takeFatal e w).pc = s.pc := rfl
@[simp] theorem State.takeFatal_sp (s : State) (e : FatalError) (w : Option Word) : (s.takeFatal e w).sp = s.sp := rfl
@[simp] theorem State.takeFatal_stack (s : State) (e : FatalError) (w : Option Word) : (s.takeFatal e w).stack = s.stack := rfl
@[simp] theorem State.takeFatal_dt (s : State) (e : FatalError) (w : Option Word) : (s.takeFatal e w).dt = s.dt := rfl
@[simp] theorem State.takeFatal_st (s : State) (e : FatalError) (w : Option Word) : (s.takeFatal e w).st = s.st := rfl
@[simp] theorem State.takeFatal_disp (s : State) (e : FatalError) (w : Option Word) : (s.takeFatal e w).disp = s.disp := rfl
@[simp] theorem State.takeFatal_drawFlag (s : State) (e : FatalError) (w : Option Word) : (s.takeFatal e w).drawFlag = s.drawFlag := rfl
@[simp] theorem State.takeFatal_key (s : State) (e : FatalError) (w : Option Word) : (s.takeFatal e w).key = s.key := rfl
@[simp] theorem State.takeFatal_wait (s : State) (e : FatalError) (w : Option Word) : (s.takeFatal e w).wait = s.wait := rfl
@[simp] theorem State.takeFatal_fault (s : State) (e : FatalError) (w : Option Word) : (s.takeFatal e w).fault = some { error := e, pc := s.pc, word := w } := rfl
@[simp] theorem State.takeFatal_drawCount (s : State) (e : FatalError) (w : Option Word) : (s.takeFatal e w).drawCount = s.drawCount := rfl

/-! ### `State.tick` -/

@[simp] theorem State.tick_cfg (s : State) : s.tick.cfg = s.cfg := rfl
@[simp] theorem State.tick_mem (s : State) : s.tick.mem = s.mem := rfl
@[simp] theorem State.tick_v (s : State) : s.tick.v = s.v := rfl
@[simp] theorem State.tick_i (s : State) : s.tick.i = s.i := rfl
@[simp] theorem State.tick_pc (s : State) : s.tick.pc = s.pc := rfl
@[simp] theorem State.tick_sp (s : State) : s.tick.sp = s.sp := rfl
@[simp] theorem State.tick_stack (s : State) : s.tick.stack = s.stack := rfl
@[simp] theorem State.tick_dt (s : State) : s.tick.dt = if s.dt = 0 then s.dt else s.dt - 1 := rfl
@[simp] theorem State.tick_st (s : State) : s.tick.st = if s.st = 0 then s.st else s.st - 1 := rfl
@[simp] theorem State.tick_disp (s : State) : s.tick.disp = s.disp := rfl
@[simp] theorem State.tick_drawFlag (s : State) : s.tick.drawFlag = s.drawFlag := rfl
@[simp] theorem State.tick_key (s : State) : s.tick.key = s.key := rfl
@[simp] theorem State.tick_wait (s : State) : s.tick.wait = s.wait := rfl
@[simp] theorem State.tick_fault (s : State) : s.tick.fault = s.fault := rfl
@[simp] theorem State.tick_drawCount (s : State) : s.tick.drawCount = s.drawCount := rfl

/-! ### `State.setKey` -/

@[simp] theorem State.setKey_cfg (s : State) (k : KeyIndex) (p : Bool) : (s.setKey k p).cfg = s.cfg := rfl
@[simp] theorem State.setKey_mem (s : State) (k : KeyIndex) (p : Bool) : (s.setKey k p).mem = s.mem := rfl
@[simp] theorem State.setKey_v (s : State) (k : KeyIndex) (p : Bool) : (s.setKey k p).v = s.v := rfl
@[simp] theorem State.setKey_i (s : State) (k : KeyIndex) (p : Bool) : (s.setKey k p).i = s.i := rfl
@[simp] theorem State.setKey_pc (s : State) (k : KeyIndex) (p : Bool) : (s.setKey k p).pc = s.pc := rfl
@[simp] theorem State.setKey_sp (s : State) (k : KeyIndex) (p : Bool) : (s.setKey k p).sp = s.sp := rfl
@[simp] theorem State.setKey_stack (s : State) (k : KeyIndex) (p : Bool) : (s.setKey k p).stack = s.stack := rfl
@[simp] theorem State.setKey_dt (s : State) (k : KeyIndex) (p : Bool) : (s.setKey k p).dt = s.dt := rfl
@[simp] theorem State.setKey_st (s : State) (k : KeyIndex) (p : Bool) : (s.setKey k p).st = s.st := rfl
@[simp] theorem State.setKey_disp (s : State) (k : KeyIndex) (p : Bool) : (s.setKey k p).disp = s.disp := rfl
@[simp] theorem State.setKey_drawFlag (s : State) (k : KeyIndex) (p : Bool) : (s.setKey k p).drawFlag = s.drawFlag := rfl
@[simp] theorem State.setKey_key (s : State) (k : KeyIndex) (p : Bool) : (s.setKey k p).key = s.key.set k.val p := rfl
@[simp] theorem State.setKey_wait (s : State) (k : KeyIndex) (p : Bool) : (s.setKey k p).wait = s.wait := rfl
@[simp] theorem State.setKey_fault (s : State) (k : KeyIndex) (p : Bool) : (s.setKey k p).fault = s.fault := rfl
@[simp] theorem State.setKey_drawCount (s : State) (k : KeyIndex) (p : Bool) : (s.setKey k p).drawCount = s.drawCount := rfl

/-! ### `State.skipIf` -/

@[simp] theorem State.skipIf_cfg (s : State) (c : Bool) : (s.skipIf c).cfg = s.cfg := by
  cases c <;> rfl
@[simp] theorem State.skipIf_mem (s : State) (c : Bool) : (s.skipIf c).mem = s.mem := by
  cases c <;> rfl
@[simp] theorem State.skipIf_v (s : State) (c : Bool) : (s.skipIf c).v = s.v := by
  cases c <;> rfl
@[simp] theorem State.skipIf_i (s : State) (c : Bool) : (s.skipIf c).i = s.i := by
  cases c <;> rfl
@[simp] theorem State.skipIf_pc (s : State) (c : Bool) : (s.skipIf c).pc = if c then s.pc + 2 else s.pc := by
  cases c <;> rfl
@[simp] theorem State.skipIf_sp (s : State) (c : Bool) : (s.skipIf c).sp = s.sp := by
  cases c <;> rfl
@[simp] theorem State.skipIf_stack (s : State) (c : Bool) : (s.skipIf c).stack = s.stack := by
  cases c <;> rfl
@[simp] theorem State.skipIf_dt (s : State) (c : Bool) : (s.skipIf c).dt = s.dt := by
  cases c <;> rfl
@[simp] theorem State.skipIf_st (s : State) (c : Bool) : (s.skipIf c).st = s.st := by
  cases c <;> rfl
@[simp] theorem State.skipIf_disp (s : State) (c : Bool) : (s.skipIf c).disp = s.disp := by
  cases c <;> rfl
@[simp] theorem State.skipIf_drawFlag (s : State) (c : Bool) : (s.skipIf c).drawFlag = s.drawFlag := by
  cases c <;> rfl
@[simp] theorem State.skipIf_key (s : State) (c : Bool) : (s.skipIf c).key = s.key := by
  cases c <;> rfl
@[simp] theorem State.skipIf_wait (s : State) (c : Bool) : (s.skipIf c).wait = s.wait := by
  cases c <;> rfl
@[simp] theorem State.skipIf_fault (s : State) (c : Bool) : (s.skipIf c).fault = s.fault := by
  cases c <;> rfl
@[simp] theorem State.skipIf_drawCount (s : State) (c : Bool) : (s.skipIf c).drawCount = s.drawCount := by
  cases c <;> rfl

/-! ### `State.postIncrementI` -/

@[simp] theorem State.postIncrementI_cfg (s : State) (x : Reg) : (s.postIncrementI x).cfg = s.cfg := by
  unfold State.postIncrementI; split <;> simp_all [State.setI]
@[simp] theorem State.postIncrementI_mem (s : State) (x : Reg) : (s.postIncrementI x).mem = s.mem := by
  unfold State.postIncrementI; split <;> simp_all [State.setI]
@[simp] theorem State.postIncrementI_v (s : State) (x : Reg) : (s.postIncrementI x).v = s.v := by
  unfold State.postIncrementI; split <;> simp_all [State.setI]
@[simp] theorem State.postIncrementI_i (s : State) (x : Reg) : (s.postIncrementI x).i = if s.cfg.quirkLoadStoreIncrementsI then s.i + BitVec.ofNat 16 (x.val + 1) else s.i := by
  unfold State.postIncrementI; split <;> simp_all [State.setI]
@[simp] theorem State.postIncrementI_pc (s : State) (x : Reg) : (s.postIncrementI x).pc = s.pc := by
  unfold State.postIncrementI; split <;> simp_all [State.setI]
@[simp] theorem State.postIncrementI_sp (s : State) (x : Reg) : (s.postIncrementI x).sp = s.sp := by
  unfold State.postIncrementI; split <;> simp_all [State.setI]
@[simp] theorem State.postIncrementI_stack (s : State) (x : Reg) : (s.postIncrementI x).stack = s.stack := by
  unfold State.postIncrementI; split <;> simp_all [State.setI]
@[simp] theorem State.postIncrementI_dt (s : State) (x : Reg) : (s.postIncrementI x).dt = s.dt := by
  unfold State.postIncrementI; split <;> simp_all [State.setI]
@[simp] theorem State.postIncrementI_st (s : State) (x : Reg) : (s.postIncrementI x).st = s.st := by
  unfold State.postIncrementI; split <;> simp_all [State.setI]
@[simp] theorem State.postIncrementI_disp (s : State) (x : Reg) : (s.postIncrementI x).disp = s.disp := by
  unfold State.postIncrementI; split <;> simp_all [State.setI]
@[simp] theorem State.postIncrementI_drawFlag (s : State) (x : Reg) : (s.postIncrementI x).drawFlag = s.drawFlag := by
  unfold State.postIncrementI; split <;> simp_all [State.setI]
@[simp] theorem State.postIncrementI_key (s : State) (x : Reg) : (s.postIncrementI x).key = s.key := by
  unfold State.postIncrementI; split <;> simp_all [State.setI]
@[simp] theorem State.postIncrementI_wait (s : State) (x : Reg) : (s.postIncrementI x).wait = s.wait := by
  unfold State.postIncrementI; split <;> simp_all [State.setI]
@[simp] theorem State.postIncrementI_fault (s : State) (x : Reg) : (s.postIncrementI x).fault = s.fault := by
  unfold State.postIncrementI; split <;> simp_all [State.setI]
@[simp] theorem State.postIncrementI_drawCount (s : State) (x : Reg) : (s.postIncrementI x).drawCount = s.drawCount := by
  unfold State.postIncrementI; split <;> simp_all [State.setI]

/-! ### The register file -/

/-- Reading a register after a write: the written value there, the old value elsewhere. -/
theorem State.getV_setV (s : State) (x y : Reg) (b : Byte) :
    (s.setV x b).getV y = if x = y then b else s.getV y := by
  simp [State.getV, State.setV, Vector.getElem_set, Fin.ext_iff]

@[simp] theorem State.getV_setV_same (s : State) (x : Reg) (b : Byte) : (s.setV x b).getV x = b := by
  simp [State.getV_setV]

theorem State.getV_setV_other (s : State) {x y : Reg} (b : Byte) (h : x ≠ y) : (s.setV x b).getV y = s.getV y := by
  simp [State.getV_setV, h]

/-- Reading a register after the flag write: the flag in VF, the old value elsewhere. -/
theorem State.getV_setFlag (s : State) (y : Reg) (c : Bool) :
    (s.setFlag c).getV y = if y = vF then (if c then 1 else 0) else s.getV y := by
  simp only [State.setFlag, State.getV_setV, eq_comm]

/-- Only the register file matters to a register's value. -/
theorem State.getV_congr {s t : State} (h : s.v = t.v) (x : Reg) : s.getV x = t.getV x := by
  simp only [State.getV, h]

@[simp] theorem State.getV_setI (s : State) (a : Word) (r : Reg) : (s.setI a).getV r = s.getV r := rfl
@[simp] theorem State.getV_setPC (s : State) (a : Word) (r : Reg) : (s.setPC a).getV r = s.getV r := rfl
@[simp] theorem State.getV_advancePC (s : State) (r : Reg) : s.advancePC.getV r = s.getV r := rfl
@[simp] theorem State.getV_skip (s : State) (r : Reg) : s.skip.getV r = s.getV r := rfl
@[simp] theorem State.getV_takeFatal (s : State) (e : FatalError) (w : Option Word) (r : Reg) : (s.takeFatal e w).getV r = s.getV r := rfl
@[simp] theorem State.getV_tick (s : State) (r : Reg) : s.tick.getV r = s.getV r := rfl
@[simp] theorem State.getV_setKey (s : State) (k : KeyIndex) (p : Bool) (r : Reg) : (s.setKey k p).getV r = s.getV r := rfl
@[simp] theorem State.getV_skipIf (s : State) (c : Bool) (r : Reg) : (s.skipIf c).getV r = s.getV r := by
  cases c <;> rfl
@[simp] theorem State.getV_postIncrementI (s : State) (x r : Reg) : (s.postIncrementI x).getV r = s.getV r := by
  simp [State.getV]

/-! ### One byte of memory -/

/-- Only the memory and the configuration matter to a byte's value. -/
theorem State.byteAt_congr {s t : State} (hm : s.mem = t.mem) (hc : s.cfg = t.cfg) (a : Nat) :
    s.byteAt a = t.byteAt a := by
  simp only [State.byteAt, hm, hc]

@[simp] theorem State.byteAt_setV (s : State) (x : Reg) (b : Byte) (n : Nat) : (s.setV x b).byteAt n = s.byteAt n := rfl
@[simp] theorem State.byteAt_setFlag (s : State) (c : Bool) (n : Nat) : (s.setFlag c).byteAt n = s.byteAt n := rfl
@[simp] theorem State.byteAt_setI (s : State) (a : Word) (n : Nat) : (s.setI a).byteAt n = s.byteAt n := rfl
@[simp] theorem State.byteAt_setPC (s : State) (a : Word) (n : Nat) : (s.setPC a).byteAt n = s.byteAt n := rfl
@[simp] theorem State.byteAt_advancePC (s : State) (n : Nat) : s.advancePC.byteAt n = s.byteAt n := rfl
@[simp] theorem State.byteAt_skip (s : State) (n : Nat) : s.skip.byteAt n = s.byteAt n := rfl
@[simp] theorem State.byteAt_takeFatal (s : State) (e : FatalError) (w : Option Word) (n : Nat) : (s.takeFatal e w).byteAt n = s.byteAt n := rfl
@[simp] theorem State.byteAt_tick (s : State) (n : Nat) : s.tick.byteAt n = s.byteAt n := rfl
@[simp] theorem State.byteAt_setKey (s : State) (k : KeyIndex) (p : Bool) (n : Nat) : (s.setKey k p).byteAt n = s.byteAt n := rfl
@[simp] theorem State.byteAt_skipIf (s : State) (c : Bool) (n : Nat) : (s.skipIf c).byteAt n = s.byteAt n := by
  cases c <;> rfl
@[simp] theorem State.byteAt_postIncrementI (s : State) (x : Reg) (n : Nat) :
    (s.postIncrementI x).byteAt n = s.byteAt n := by
  simp [State.byteAt]

end Sys2Proof.Machine
end

