-- ==== Sys2Proof/Laws/Ops.lean ====
section
/-! SUPPORT. One lemma per shared operation that says once everything it can do. -/

namespace Sys2Proof.Machine

/-! ### The checks (20_memory.md R51, R61) -/

theorem check_eq_ok (a n : Nat) (h : a + n ≤ 0x1000) : check a n = .ok () := by
  rw [check, if_neg (by omega)]

theorem check_eq_error (a n : Nat) (h : 0x1000 < a + n) : check a n = .error (.raise (.outOfBounds (max a 0x1000))) := by
  rw [check, if_pos (by omega)]

theorem checkReserved_eq_ok (cfg : Config) (a : Nat) (h : cfg.reservedWriteFaults = false ∨ 0x200 ≤ a) :
    checkReserved cfg a = .ok () := by
  rw [checkReserved, if_neg]
  rcases h with h | h
  · simp [h]
  · simp only [Bool.and_eq_true, decide_eq_true_eq, not_and]; omega

theorem checkReserved_eq_error (cfg : Config) (a : Nat) (hc : cfg.reservedWriteFaults = true) (h : a < 0x200) :
    checkReserved cfg a = .error (.raise (.outOfBounds a)) := by
  rw [checkReserved, if_pos (by simp [hc, h])]

/-! ### Reading and writing memory -/

/-- Everything `memRead` can do. -/
theorem State.memRead_cases (s : State) (a n : Nat) :
    (a + n - 1 ≤ 0xFFF ∧ s.memRead a n = .ok (s.mem.readBytes s.cfg.fontBase a n)) ∨
    (0xFFF < a + n - 1 ∧ s.memRead a n = .error (.raise (.outOfBounds (max a 0x1000)))) := by
  by_cases h : a + n - 1 ≤ 0xFFF
  · exact .inl ⟨h, by rw [State.memRead, check, if_neg (by omega)]⟩
  · exact .inr ⟨by omega, by rw [State.memRead, check, if_pos (by omega)]⟩

/-- Everything `memWrite` can do: the bounds check, then the reserved check, then the bytes (R53, R61). -/
theorem State.memWrite_cases (s : State) (a : Nat) (bs : List Byte) :
    (0xFFF < a + bs.length - 1 ∧ s.memWrite a bs = .error (.raise (.outOfBounds (max a 0x1000)))) ∨
    (a + bs.length - 1 ≤ 0xFFF ∧ s.cfg.reservedWriteFaults = true ∧ a < 0x200 ∧
      s.memWrite a bs = .error (.raise (.outOfBounds a))) ∨
    (a + bs.length - 1 ≤ 0xFFF ∧ (s.cfg.reservedWriteFaults = false ∨ 0x200 ≤ a) ∧
      s.memWrite a bs = .ok { s with mem := s.mem.writeBytes s.cfg.fontBase a bs }) := by
  by_cases h : a + bs.length - 1 ≤ 0xFFF
  · have hc : check a bs.length = .ok () := by rw [check, if_neg (by omega)]
    by_cases hr : s.cfg.reservedWriteFaults = true ∧ a < 0x200
    · exact .inr (.inl ⟨h, hr.1, hr.2, by rw [State.memWrite, hc, checkReserved_eq_error _ _ hr.1 hr.2]⟩)
    · have hr' : s.cfg.reservedWriteFaults = false ∨ 0x200 ≤ a := by
        rcases Bool.eq_false_or_eq_true s.cfg.reservedWriteFaults with ht | hf
        · exact .inr (by simpa [ht] using hr)
        · exact .inl hf
      exact .inr (.inr ⟨h, hr', by rw [State.memWrite, hc, checkReserved_eq_ok _ _ hr']⟩)
  · exact .inl ⟨by omega, by rw [State.memWrite, check, if_pos (by omega)]⟩

/-- The byte of memory at c after a store that went through (20_memory.md R53: "A write changes only the bytes it names"). -/
theorem State.byteAt_writeBytes (s : State) (hs : s.mem.wf s.cfg.fontBase = true) (a : Nat) (bs : List Byte)
    (ha : a + bs.length ≤ 0x1000) (c : Nat) :
    State.byteAt { s with mem := s.mem.writeBytes s.cfg.fontBase a bs } c =
      if a ≤ c ∧ c < a + bs.length then bs.getD (c - a) 0 else s.byteAt c :=
  Memory.read_writeBytes s.cfg.fontBase bs hs ha c

/-! ### The call stack (10_state.md R30, R31) -/

/-- Everything `push` can do. -/
theorem State.push_cases (s : State) (a : Word) :
    (s.sp = 16 ∧ s.push a = .error (.raise .stackOverflow)) ∨
    (16 < s.sp ∧ s.push a = .error (.outsideSpec .stackPointerOutOfRange)) ∨
    (s.sp < 16 ∧ s.push a = .ok { s with stack := s.stack.setIfInBounds s.sp.toNat a, sp := s.sp + 1 }) := by
  by_cases h : s.sp = 16
  · exact .inl ⟨h, by rw [State.push, if_pos h]⟩
  · by_cases h' : 16 < s.sp
    · exact .inr (.inl ⟨h', by rw [State.push, if_neg h, if_pos h']⟩)
    · exact .inr (.inr ⟨by bv_omega, by rw [State.push, if_neg h, if_neg h']⟩)

/-- Everything `pop` can do. -/
theorem State.pop_cases (s : State) :
    (s.sp = 0 ∧ s.pop = .error (.raise .stackUnderflow)) ∨
    (16 < s.sp ∧ s.pop = .error (.outsideSpec .stackPointerOutOfRange)) ∨
    (0 < s.sp ∧ s.sp ≤ 16 ∧
      s.pop = .ok (s.stack.toList.getD (s.sp - 1).toNat 0, { s with sp := s.sp - 1 })) := by
  by_cases h : s.sp = 0
  · exact .inl ⟨h, by rw [State.pop, if_pos h]⟩
  · by_cases h' : 16 < s.sp
    · exact .inr (.inl ⟨h', by rw [State.pop, if_neg h, if_pos h']⟩)
    · exact .inr (.inr ⟨by bv_omega, by bv_omega, by rw [State.pop, if_neg h, if_neg h']⟩)

/-! ### Groups of registers (42_index_memory.md R154, R155) -/

/-- Register j after loading bytes into V[k], V[k + 1], ...: the byte that falls on it, else its old value. -/
theorem loadRegs_getElem (v : Vector Byte 16) (k : Nat) (bs : List Byte) (j : Nat) (hj : j < 16) :
    (loadRegs v k bs)[j] = if k ≤ j ∧ j < k + bs.length then bs.getD (j - k) 0 else v[j] := by
  induction bs generalizing v k with
  | nil => rw [if_neg (by simp only [List.length_nil]; omega)]; rfl
  | cons b bs ih =>
    rw [loadRegs, ih, List.length_cons]
    by_cases hjk : j = k
    · subst hjk
      rw [if_neg (by omega), if_pos (by omega), Nat.sub_self]
      simp
    · by_cases h : k + 1 ≤ j ∧ j < k + 1 + bs.length
      · rw [if_pos h, if_pos (by omega), show j - k = (j - (k + 1)) + 1 by omega]; rfl
      · rw [if_neg h, if_neg (by omega)]
        simp [Ne.symm hjk]

/-- FX55 stores X + 1 bytes. -/
@[simp] theorem State.length_regsUpTo (s : State) (x : Reg) : (s.regsUpTo x).length = x.val + 1 := by
  simp only [State.regsUpTo, List.length_take, Vector.length_toList]; omega

/-- The k-th of them is V[k]. -/
theorem State.getD_regsUpTo (s : State) (x : Reg) (k : Nat) (hk : k ≤ x.val) (d : Byte) :
    (s.regsUpTo x).getD k d = s.v[k] := by
  simp [State.regsUpTo, List.getD_eq_getElem?_getD, Nat.lt_succ_of_le hk]

/-! ### Operands -/

/-- Everything `nibbleOperand` can do (R152, R185, R186). -/
theorem State.nibbleOperand_cases (s : State) (x : Reg) :
    (∃ d : Fin 16, (s.getV x).toNat = d.val ∧ s.nibbleOperand x = .ok d) ∨
    (0xF < (s.getV x).toNat ∧ s.nibbleOperand x = .error (.raise (.unspecifiedOperand (s.getV x)))) := by
  by_cases h : (s.getV x).toNat < 16
  · exact .inl ⟨⟨_, h⟩, rfl, by rw [State.nibbleOperand, dif_pos h]⟩
  · exact .inr ⟨by omega, by rw [State.nibbleOperand, dif_neg h]⟩

/-! ### From an effect to a step (30_encoding.md R80) -/

/-- Everything `perform` can do: the effect's state, or the state before the step with the fatal error latched, or a stop
outside the spec. -/
theorem perform_cases (i : Instr) (s : State) (effect : State → Except Stop State) :
    (∃ t, effect s.advancePC = .ok t ∧ perform i s effect = .next t) ∨
    (∃ e, effect s.advancePC = .error (.raise e) ∧ perform i s effect = .next (s.takeFatal e (some (encode i)))) ∨
    (∃ f, effect s.advancePC = .error (.outsideSpec f) ∧ perform i s effect = .fault f) := by
  unfold perform
  cases h : effect s.advancePC with
  | ok t => exact .inl ⟨t, rfl, rfl⟩
  | error e =>
    cases e with
    | raise e => exact .inr (.inl ⟨e, rfl, rfl⟩)
    | outsideSpec f => exact .inr (.inr ⟨f, rfl, rfl⟩)

theorem perform_ok {i : Instr} {s t : State} {effect : State → Except Stop State}
    (h : effect s.advancePC = .ok t) : perform i s effect = .next t := by
  rw [perform, h]

theorem perform_raise {i : Instr} {s : State} {e : FatalError} {effect : State → Except Stop State}
    (h : effect s.advancePC = .error (.raise e)) : perform i s effect = .next (s.takeFatal e (some (encode i))) := by
  rw [perform, h]

theorem complete_eq (s : State) (effect : State → State) : complete s effect = .next (effect s.advancePC) := rfl

end Sys2Proof.Machine
end

