-- ==== Sys2Proof/Laws/Cycle.lean ====
section
/-! SUPPORT. Everything one step can do, and the key-wait poll (30_encoding.md R80, 44_input.md R188). -/

namespace Sys2Proof.Machine

/-- Everything `fetch` can do (20_memory.md R51, R52). -/
theorem State.fetch_cases (s : State) :
    (s.pc.toNat ≤ 0xFFE ∧ s.fetch = .ok (wordOfBytes (s.byteAt s.pc.toNat) (s.byteAt (s.pc.toNat + 1)))) ∨
    (0xFFE < s.pc.toNat ∧ s.fetch = .error (.raise (.outOfBounds (max s.pc.toNat 0x1000)))) := by
  by_cases h : s.pc.toNat ≤ 0xFFE
  · exact .inl ⟨h, by rw [State.fetch, check_eq_ok _ _ (by omega)]⟩
  · exact .inr ⟨by omega, by rw [State.fetch, check_eq_error _ _ (by omega)]⟩

/-- Everything a decode error can be on a word: UnknownOpcode of that word (30_encoding.md R75). -/
theorem decode_error {w : Word} {e : DecodeError} (h : decode w = .error e) : e = .unknownOpcode w := by
  unfold decode at h
  split at h <;> (try split at h) <;> (try split at h) <;> simp_all

/-- Everything one step can do (R80, R212, R213). -/
theorem step_cases (s : State) :
    (∃ r, s.fault = some r ∧ step s = .next s) ∨
    (∃ w, s.fault = none ∧ s.wait = some w ∧ step s = .next (s.keyWaitPoll w)) ∨
    (s.fault = none ∧ s.wait = none ∧ 0xFFE < s.pc.toNat ∧
      step s = .next (s.takeFatal (.outOfBounds (max s.pc.toNat 0x1000)) none)) ∨
    (∃ w, s.fault = none ∧ s.wait = none ∧ s.fetch = .ok w ∧ decode w = .error (.unknownOpcode w) ∧
      step s = .next (s.takeFatal (.unknownOpcode w) (some w))) ∨
    (∃ w i, s.fault = none ∧ s.wait = none ∧ s.fetch = .ok w ∧ decode w = .ok i ∧ step s = exec i s) := by
  cases hf : s.fault with
  | some r => exact .inl ⟨r, rfl, by simp only [step, cycle, hf]⟩
  | none =>
    cases hw : s.wait with
    | some w => exact .inr (.inl ⟨w, rfl, rfl, by simp only [step, cycle, hf, hw]⟩)
    | none =>
      have hstep : step s = runInstruction s := by simp only [step, cycle, hf, hw]
      rcases s.fetch_cases with ⟨_, h⟩ | ⟨hpc, h⟩
      · cases hd : decode (wordOfBytes (s.byteAt s.pc.toNat) (s.byteAt (s.pc.toNat + 1))) with
        | error e =>
          have he := decode_error hd
          subst he
          exact .inr (.inr (.inr (.inl ⟨_, rfl, rfl, h, hd, by simp only [hstep, runInstruction, h, hd]⟩)))
        | ok i =>
          exact .inr (.inr (.inr (.inr ⟨_, i, rfl, rfl, h, hd, by simp only [hstep, runInstruction, h, hd]⟩)))
      · exact .inr (.inr (.inl ⟨rfl, rfl, hpc, by simp only [hstep, runInstruction, h]⟩))

/-- The word placed by `withFetchWord` is the one fetched. -/
theorem State.fetch_withFetchWord (s : State) (hs : s.mem.wf s.cfg.fontBase = true) (w : Word) :
    (s.withFetchWord 16 w.toNat).fetch = .ok w := by
  have hpc : s.readyToFetch.pc.toNat ≤ 0xFFE := by
    show (if s.pc.toNat ≤ 0xFFE then s.pc else 0x0200).toNat ≤ 0xFFE
    split
    · assumption
    · decide
  have hw : BitVec.ofNat 16 (w.toNat % 2 ^ 16) = w := by
    rw [Nat.mod_eq_of_lt w.isLt, BitVec.ofNat_toNat, BitVec.setWidth_eq]
  have hread : ∀ a, (s.readyToFetch.storeWord w).byteAt a = _ := fun a =>
    Memory.read_writeBytes s.cfg.fontBase [highByte w, lowByte w] (a := s.readyToFetch.pc.toNat) hs
      (by simp only [List.length_cons, List.length_nil]; omega) a
  rw [State.withFetchWord, hw, State.fetch, check_eq_ok _ _ (by show s.readyToFetch.pc.toNat + 2 ≤ _; omega)]
  show Except.ok (wordOfBytes ((s.readyToFetch.storeWord w).byteAt s.readyToFetch.pc.toNat)
    ((s.readyToFetch.storeWord w).byteAt (s.readyToFetch.pc.toNat + 1))) = _
  rw [hread, hread]
  simp

/-- A step from a state with a placed word runs exactly the instruction the word decodes to. -/
theorem step_withFetchWord (s : State) (hs : s.mem.wf s.cfg.fontBase = true) (w : Word) (i : Instr)
    (hd : decode w = .ok i) : step (s.withFetchWord 16 w.toNat) = exec i (s.withFetchWord 16 w.toNat) := by
  have hf : (s.withFetchWord 16 w.toNat).fault = none := rfl
  have hw : (s.withFetchWord 16 w.toNat).wait = none := rfl
  simp only [step, cycle, hf, hw, runInstruction, s.fetch_withFetchWord hs w, hd]

/-- The keys are listed in rising order, each once. -/
theorem allKeys_rising : allKeys.Pairwise (· < ·) := by decide

theorem mem_allKeys (k : KeyIndex) : k ∈ allKeys := by revert k; decide

/-- Everything the poll can do (R188). -/
theorem State.keyWaitPoll_cases (s : State) (w : KeyWait) :
    (newlyPressed s.key w.prev = none ∧ s.keyWaitPoll w = { s with wait := some { x := w.x, prev := s.key } }) ∨
    (∃ k, newlyPressed s.key w.prev = some k ∧
      s.keyWaitPoll w = { (s.setV w.x (BitVec.ofNat 8 k.val)).advancePC with wait := none }) := by
  unfold State.keyWaitPoll
  cases newlyPressed s.key w.prev with
  | none => exact .inl ⟨rfl, rfl⟩
  | some k => exact .inr ⟨k, rfl, rfl⟩

/-- Everything `load` can do (70_reset_and_hazards.md R241, 60_exceptions.md R228). -/
theorem State.load_cases (s : State) (bytes : List Byte) :
    (3584 < bytes.length ∧ s.load bytes = (.programTooLarge bytes.length, s)) ∨
    (bytes.length ≤ 3584 ∧ s.load bytes =
      (.ok, { State.initial s.cfg with
        drawCount := s.drawCount, mem := Memory.writeBytes s.cfg.fontBase [] 0x200 bytes })) := by
  by_cases h : 3584 < bytes.length
  · exact .inl ⟨h, by rw [State.load, if_pos h]⟩
  · exact .inr ⟨by omega, by rw [State.load, if_neg h]; rfl⟩

end Sys2Proof.Machine
end

