-- ==== Sys2Proof/Laws/Display.lean ====
section
/-! SUPPORT. The laws of the display: one pixel after a toggle, where a sprite pixel lands, and one plotted bit. -/

namespace Sys2Proof.Machine

/-- A toggle changes its pixel and no other. -/
theorem Display.pixel_toggle (d : Display) (x x' : Fin 64) (y y' : Fin 32) :
    (d.toggle x y).pixel x' y' = if x' = x ∧ y' = y then !d.pixel x y else d.pixel x' y' := by
  unfold Display.toggle Display.pixel
  by_cases hy : y' = y
  · subst hy
    by_cases hx : x' = x
    · subst hx; simp
    · have : ¬ (x.val = x'.val) := fun h => hx (Fin.ext h).symm
      simp [hx, this]
  · have : ¬ (y.val = y'.val) := fun h => hy (Fin.ext h).symm
    simp [hy, this]

/-- Two displays with the same pixels are the same display. -/
theorem Display.ext_pixel {d d' : Display} (h : ∀ x y, d.pixel x y = d'.pixel x y) : d = d' := by
  apply Vector.ext
  intro y hy
  apply Vector.ext
  intro x hx
  exact h ⟨x, hx⟩ ⟨y, hy⟩

@[simp] theorem pixel_blankDisplay (x : Fin 64) (y : Fin 32) : blankDisplay.pixel x y = false := by
  simp [Display.pixel, blankDisplay]

/-- Where a sprite pixel lands (43_display.md R171). -/
theorem landing_eq_some (wrap : Bool) (px py : Nat) (x : Fin 64) (y : Fin 32) :
    landing wrap px py = some (x, y) ↔
      (wrap = true ∧ px % 64 = x.val ∧ py % 32 = y.val) ∨ (wrap = false ∧ px = x.val ∧ py = y.val) := by
  unfold landing
  cases wrap
  · by_cases h : px < 64 ∧ py < 32
    · simp [h, Fin.ext_iff]
    · simp only [Bool.false_eq_true, if_false, dif_neg h, reduceCtorEq, false_and, true_and, false_or, false_iff]
      omega
  · simp [Fin.ext_iff, Fin.ofNat]

/-- One plotted bit, pixel by pixel: the pixel it lands on is toggled, and it collides if that pixel was set. -/
theorem plot_pixel (wrap : Bool) (px py : Nat) (a : Display × Bool) (x : Fin 64) (y : Fin 32) :
    (plot wrap px py a).1.pixel x y =
      if landing wrap px py = some (x, y) then !a.1.pixel x y else a.1.pixel x y := by
  unfold plot
  cases h : landing wrap px py with
  | none => simp
  | some p =>
    obtain ⟨x', y'⟩ := p
    simp only [Display.pixel_toggle, Option.some.injEq, Prod.mk.injEq]
    by_cases hx : x = x' ∧ y = y'
    · obtain ⟨rfl, rfl⟩ := hx; simp
    · have hx' : ¬ (x' = x ∧ y' = y) := fun h => hx ⟨h.1.symm, h.2.symm⟩
      rw [if_neg hx, if_neg hx']

theorem plot_collision (wrap : Bool) (px py : Nat) (a : Display × Bool) :
    (plot wrap px py a).2 = true ↔
      a.2 = true ∨ ∃ x y, landing wrap px py = some (x, y) ∧ a.1.pixel x y = true := by
  unfold plot
  cases h : landing wrap px py with
  | none => simp
  | some p =>
    obtain ⟨x', y'⟩ := p
    simp

/-- The rows DXYN reads: none for N = 0, else the N bytes from I (43_display.md R171). -/
theorem State.spriteRows_cases (s : State) (n : Nat) :
    (n = 0 ∧ s.spriteRows n = .ok []) ∨
    (0 < n ∧ s.indexAddr + n - 1 ≤ 0xFFF ∧
      s.spriteRows n = .ok (s.mem.readBytes s.cfg.fontBase s.indexAddr n)) ∨
    (0 < n ∧ 0xFFF < s.indexAddr + n - 1 ∧
      s.spriteRows n = .error (.raise (.outOfBounds (max s.indexAddr 0x1000)))) := by
  unfold State.spriteRows
  rcases Nat.eq_zero_or_pos n with h | h
  · exact .inl ⟨h, by rw [if_pos h]⟩
  · rw [if_neg (by omega)]
    rcases s.memRead_cases s.indexAddr n with ⟨hb, hr⟩ | ⟨hb, hr⟩
    · exact .inr (.inl ⟨h, hb, hr⟩)
    · exact .inr (.inr ⟨h, hb, hr⟩)

end Sys2Proof.Machine
end

