-- ==== Sys2Proof/Laws/Exec.lean ====
section
/-! SUPPORT. Everything an instruction can do when it answers a next state: it takes a fatal error, or it completes, and then
what each part of the state can have become. -/

namespace Sys2Proof.Machine

/-! ### Inversion of the shared operations -/

theorem perform_next {i : Instr} {s t : State} {effect : State → Except Stop State}
    (h : perform i s effect = .next t) :
    effect s.advancePC = .ok t ∨
      ∃ e, effect s.advancePC = .error (.raise e) ∧ t = s.takeFatal e (some (encode i)) := by
  rcases perform_cases i s effect with ⟨u, h1, h2⟩ | ⟨e, h1, h2⟩ | ⟨f, h1, h2⟩
  · rw [h2] at h; cases h; exact .inl h1
  · rw [h2] at h; cases h; exact .inr ⟨e, h1, rfl⟩
  · rw [h2] at h; cases h

theorem State.memWrite_ok {s t : State} {a : Nat} {bs : List Byte} (h : s.memWrite a bs = .ok t) :
    a + bs.length - 1 ≤ 0xFFF ∧ t = { s with mem := s.mem.writeBytes s.cfg.fontBase a bs } := by
  rcases s.memWrite_cases a bs with ⟨_, h'⟩ | ⟨_, _, _, h'⟩ | ⟨hb, _, h'⟩ <;> rw [h'] at h <;> cases h
  exact ⟨hb, rfl⟩

theorem State.memWrite_error {s : State} {e : Stop} {a : Nat} {bs : List Byte} (h : s.memWrite a bs = .error e) :
    ∃ k, e = .raise (.outOfBounds k) := by
  rcases s.memWrite_cases a bs with ⟨_, h'⟩ | ⟨_, _, _, h'⟩ | ⟨hb, _, h'⟩ <;> rw [h'] at h <;> cases h <;>
    exact ⟨_, rfl⟩

/-! ### The codes of errors (60_exceptions.md R210) -/

/-- The codes of the errors that a step can raise: all but 5, raised never, and 6, of `load` only. -/
theorem FatalError.stepCanRaise_iff_code (e : FatalError) : e.stepCanRaise = true ↔ e.code ∈ [1, 2, 3, 4, 7] := by
  cases e <;> simp [FatalError.stepCanRaise, FatalError.code]

/-- A record of a state with the invariants holds one of those codes. -/
theorem State.Inv.code_of_fault {s : State} (h : s.Inv) {r : FatalRecord} (hr : s.fault = some r) :
    r.code ∈ [1, 2, 3, 4, 7] := by
  have hp := h.recordPrecise
  simp only [State.recordPrecise, hr, Bool.and_eq_true] at hp
  exact (r.error.stepCanRaise_iff_code).1 hp.2

/-! ### The two ways to a next state -/

/-- Which instruction raises which error, and with what (60_exceptions.md R210). -/
def RaisedBy (i : Instr) (s : State) : FatalError → Prop
  | .outOfBounds _ => (∃ x y n, i = .drwVxVyN x y n) ∨ (∃ x, i = .ldBVx x ∨ i = .ldMemIVx x ∨ i = .ldVxMemI x)
  | .stackOverflow => ∃ nnn, i = .callNNN nnn
  | .stackUnderflow => i = .ret
  | .unspecifiedOperand b => ∃ x, (i = .ldFVx x ∨ i = .skpVx x ∨ i = .sknpVx x) ∧ b = s.getV x ∧ 0xF < b.toNat
  | .unknownOpcode _ => False
  | .invalidRegister _ => False
  | .programTooLarge _ => False

/-- What each part of the state can have become when the instruction i completes from s in t. -/
structure Completed (i : Instr) (s t : State) : Prop where
  cfg : t.cfg = s.cfg
  fault : t.fault = s.fault
  key : t.key = s.key
  mem : t.mem = s.mem ∨ ∃ bs : List Byte, i.storeLength = bs.length ∧ s.i.toNat + bs.length ≤ 0x1000 ∧
    t.mem = s.mem.writeBytes s.cfg.fontBase s.i.toNat bs
  wait : t.wait = s.wait ∨ ∃ x, i = .ldVxK x ∧ t.wait = some { x := x, prev := s.key } ∧ t.pc = s.pc ∧ t.mem = s.mem
  stack : (t.sp = s.sp ∧ t.stack = s.stack) ∨
    (∃ nnn, i = .callNNN nnn ∧ s.sp < 16 ∧ t.sp = s.sp + 1 ∧
      t.stack = s.stack.setIfInBounds s.sp.toNat (s.pc + 2)) ∨
    (i = .ret ∧ 0 < s.sp ∧ s.sp ≤ 16 ∧ t.sp = s.sp - 1 ∧ t.stack = s.stack)
  pc : t.pc = s.pc ∨ t.pc = s.pc + 2 ∨ t.pc = s.pc + 2 + 2 ∨ t.pc.toNat ≤ 0x10FE ∨
    (i = .ret ∧ 0 < s.sp ∧ s.sp ≤ 16 ∧ t.pc = s.stack.toList.getD (s.sp - 1).toNat 0)
  regs : ∀ r, i.mayWrite r = false → t.getV r = s.getV r
  index : t.i ≠ s.i → (∃ nnn, i = .ldINNN nnn) ∨ (∃ x, i = .addIVx x) ∨ (∃ x, i = .ldFVx x) ∨
    (s.cfg.quirkLoadStoreIncrementsI = true ∧ ∃ x, i = .ldMemIVx x ∨ i = .ldVxMemI x)
  disp : t.disp ≠ s.disp → i = .cls ∨ ∃ x y n, i = .drwVxVyN x y n
  drawFlag : t.drawFlag ≠ s.drawFlag → i = .cls ∨ ∃ x y n, i = .drwVxVyN x y n
  drawCount : t.drawCount ≠ s.drawCount → ∃ x nn, i = .rndVxNN x nn
  dt : t.dt ≠ s.dt → ∃ x, i = .ldDTVx x ∧ t.dt = s.getV x
  st : t.st ≠ s.st → ∃ x, i = .ldSTVx x ∧ t.st = s.getV x

/-- Where PC stands after a conditional skip (40_control_flow.md R100). -/
theorem skipIf_pc_cases (s : State) (c : Bool) {P : Prop} :
    (s.advancePC.skipIf c).pc = s.pc ∨ (s.advancePC.skipIf c).pc = s.pc + 2 ∨
      (s.advancePC.skipIf c).pc = s.pc + 2 + 2 ∨ P := by
  cases c
  · exact .inr (.inl rfl)
  · exact .inr (.inr (.inl rfl))

/-! ### One lemma per instruction that can raise -/

theorem execRet_cases {s t : State} (hn : execRet s = .next t) :
    (∃ e, t = s.takeFatal e (some (encode .ret)) ∧ RaisedBy .ret s e) ∨ Completed .ret s t := by
  rcases perform_next hn with h | ⟨e, h, rfl⟩ <;> clear hn <;>
    rcases s.advancePC.pop_cases with ⟨h1, h2⟩ | ⟨h1, h2⟩ | ⟨h1, h1', h2⟩ <;> rw [h2] at h <;> cases h
  · refine .inr ⟨rfl, rfl, rfl, .inl rfl, .inl rfl, .inr (.inr ⟨rfl, h1, h1', rfl, rfl⟩),
      .inr (.inr (.inr (.inr ⟨rfl, h1, h1', rfl⟩))), ?_, ?_, ?_, ?_, ?_, ?_, ?_⟩ <;> simp [State.getV]
  · exact .inl ⟨_, rfl, rfl⟩

theorem execCallNNN_cases {nnn : Addr12} {s t : State} (hn : execCallNNN nnn s = .next t) :
    (∃ e, t = s.takeFatal e (some (encode (.callNNN nnn))) ∧ RaisedBy (.callNNN nnn) s e) ∨
      Completed (.callNNN nnn) s t := by
  rcases perform_next hn with h | ⟨e, h, rfl⟩ <;> clear hn <;>
    rcases s.advancePC.push_cases s.advancePC.pc with ⟨h1, h2⟩ | ⟨h1, h2⟩ | ⟨h1, h2⟩ <;> rw [h2] at h <;> cases h
  · refine .inr ⟨rfl, rfl, rfl, .inl rfl, .inl rfl, .inr (.inl ⟨_, rfl, h1, rfl, rfl⟩),
      .inr (.inr (.inr (.inl ?_))), ?_, ?_, ?_, ?_, ?_, ?_, ?_⟩ <;> simp [State.getV]
    omega
  · exact .inl ⟨_, rfl, _, rfl⟩

theorem execDrwVxVyN_cases {x y : Reg} {n : Nat} {s t : State} (hn : execDrwVxVyN x y n s = .next t) :
    (∃ e, t = s.takeFatal e (some (encode (.drwVxVyN x y n))) ∧ RaisedBy (.drwVxVyN x y n) s e) ∨
      Completed (.drwVxVyN x y n) s t := by
  rcases perform_next hn with h | ⟨e, h, rfl⟩ <;> clear hn <;>
    rcases s.advancePC.spriteRows_cases n with ⟨h1, h2⟩ | ⟨h1, _, h2⟩ | ⟨h1, _, h2⟩ <;> rw [h2] at h <;> cases h
  case inr.inr.inr => exact .inl ⟨_, rfl, .inl ⟨x, y, n, rfl⟩⟩
  all_goals
    refine .inr ⟨rfl, rfl, rfl, .inl rfl, .inl rfl, .inl ⟨rfl, rfl⟩, .inr (.inl rfl), ?_, ?_, ?_, ?_, ?_, ?_, ?_⟩ <;>
      simp [State.getV_setFlag, Instr.mayWrite]
    intro r hr
    simp [hr, State.getV]

theorem execLdFVx_cases {x : Reg} {s t : State} (hn : execLdFVx x s = .next t) :
    (∃ e, t = s.takeFatal e (some (encode (.ldFVx x))) ∧ RaisedBy (.ldFVx x) s e) ∨ Completed (.ldFVx x) s t := by
  rcases perform_next hn with h | ⟨e, h, rfl⟩ <;> clear hn <;>
    rcases s.advancePC.nibbleOperand_cases x with ⟨d, h1, h2⟩ | ⟨h1, h2⟩ <;> rw [h2] at h <;> cases h
  · refine .inr ⟨rfl, rfl, rfl, .inl rfl, .inl rfl, .inl ⟨rfl, rfl⟩, .inr (.inl rfl), ?_, ?_, ?_, ?_, ?_, ?_, ?_⟩ <;>
      simp
  · exact .inl ⟨_, rfl, x, .inl rfl, rfl, h1⟩

theorem execSkpVx_cases {x : Reg} {s t : State} (hn : execSkpVx x s = .next t) :
    (∃ e, t = s.takeFatal e (some (encode (.skpVx x))) ∧ RaisedBy (.skpVx x) s e) ∨ Completed (.skpVx x) s t := by
  rcases perform_next hn with h | ⟨e, h, rfl⟩ <;> clear hn <;>
    rcases s.advancePC.nibbleOperand_cases x with ⟨d, h1, h2⟩ | ⟨h1, h2⟩ <;> rw [h2] at h <;> cases h
  · refine .inr ⟨by simp, by simp, by simp, .inl (by simp), .inl (by simp), .inl ⟨by simp, by simp⟩,
      skipIf_pc_cases s _, ?_, ?_, ?_, ?_, ?_, ?_, ?_⟩ <;> simp
  · exact .inl ⟨_, rfl, x, .inr (.inl rfl), rfl, h1⟩

theorem execSknpVx_cases {x : Reg} {s t : State} (hn : execSknpVx x s = .next t) :
    (∃ e, t = s.takeFatal e (some (encode (.sknpVx x))) ∧ RaisedBy (.sknpVx x) s e) ∨ Completed (.sknpVx x) s t := by
  rcases perform_next hn with h | ⟨e, h, rfl⟩ <;> clear hn <;>
    rcases s.advancePC.nibbleOperand_cases x with ⟨d, h1, h2⟩ | ⟨h1, h2⟩ <;> rw [h2] at h <;> cases h
  · refine .inr ⟨by simp, by simp, by simp, .inl (by simp), .inl (by simp), .inl ⟨by simp, by simp⟩,
      skipIf_pc_cases s _, ?_, ?_, ?_, ?_, ?_, ?_, ?_⟩ <;> simp
  · exact .inl ⟨_, rfl, x, .inr (.inr rfl), rfl, h1⟩

theorem execLdBVx_cases {x : Reg} {s t : State} (hn : execLdBVx x s = .next t) :
    (∃ e, t = s.takeFatal e (some (encode (.ldBVx x))) ∧ RaisedBy (.ldBVx x) s e) ∨ Completed (.ldBVx x) s t := by
  rcases perform_next hn with h | ⟨e, h, rfl⟩ <;> clear hn
  · obtain ⟨hb, rfl⟩ := State.memWrite_ok h
    refine .inr ⟨rfl, rfl, rfl, .inr ⟨_, ?_, ?_, rfl⟩, .inl rfl, .inl ⟨rfl, rfl⟩, .inr (.inl rfl),
      ?_, ?_, ?_, ?_, ?_, ?_, ?_⟩ <;> simp [Instr.storeLength, decimalDigits, State.getV, State.indexAddr] at hb ⊢
    omega
  · obtain ⟨k, hk⟩ := State.memWrite_error h
    cases hk
    exact .inl ⟨_, rfl, .inr ⟨x, .inl rfl⟩⟩

theorem execLdMemIVx_cases {x : Reg} {s t : State} (hn : execLdMemIVx x s = .next t) :
    (∃ e, t = s.takeFatal e (some (encode (.ldMemIVx x))) ∧ RaisedBy (.ldMemIVx x) s e) ∨
      Completed (.ldMemIVx x) s t := by
  rcases perform_next hn with h | ⟨e, h, rfl⟩ <;> clear hn
  · cases hh : s.advancePC.memWrite s.advancePC.indexAddr (s.advancePC.regsUpTo x) with
    | error e => rw [hh] at h; cases h
    | ok u =>
      rw [hh] at h
      cases h
      obtain ⟨hb, rfl⟩ := State.memWrite_ok hh
      refine .inr ⟨by simp, by simp, by simp, .inr ⟨s.advancePC.regsUpTo x, ?_, ?_, ?_⟩, .inl (by simp),
        .inl ⟨by simp, by simp⟩, .inr (.inl (by simp)), ?_, ?_, ?_, ?_, ?_, ?_, ?_⟩ <;>
        simp [Instr.storeLength, State.getV, State.indexAddr] at hb ⊢
      · omega
      · intro h _; exact h
  · cases hh : s.advancePC.memWrite s.advancePC.indexAddr (s.advancePC.regsUpTo x) with
    | ok u => rw [hh] at h; cases h
    | error e =>
      rw [hh] at h
      cases h
      obtain ⟨k, hk⟩ := State.memWrite_error hh
      cases hk
      exact .inl ⟨_, rfl, .inr ⟨x, .inr (.inl rfl)⟩⟩

theorem execLdVxMemI_cases {x : Reg} {s t : State} (hn : execLdVxMemI x s = .next t) :
    (∃ e, t = s.takeFatal e (some (encode (.ldVxMemI x))) ∧ RaisedBy (.ldVxMemI x) s e) ∨
      Completed (.ldVxMemI x) s t := by
  rcases perform_next hn with h | ⟨e, h, rfl⟩ <;> clear hn <;>
    rcases s.advancePC.memRead_cases s.advancePC.indexAddr (x.val + 1) with ⟨h1, h2⟩ | ⟨h1, h2⟩ <;>
      rw [h2] at h <;> cases h
  · refine .inr ⟨by simp, by simp, by simp, .inl (by simp), .inl (by simp), .inl ⟨by simp, by simp⟩,
      .inr (.inl (by simp)), ?_, ?_, ?_, ?_, ?_, ?_, ?_⟩ <;> simp [Instr.mayWrite]
    · intro r hr; have := Fin.lt_def.1 hr; simp [State.getV, loadRegs_getElem]; omega
    · intro h _; exact h
  · exact .inl ⟨_, rfl, .inr ⟨x, .inr (.inr rfl)⟩⟩

/-! ### All instructions -/

/-- Everything an instruction can do when it answers a next state. -/
theorem exec_next_cases {i : Instr} {s t : State} (h : exec i s = .next t) :
    (∃ e, t = s.takeFatal e (some (encode i)) ∧ RaisedBy i s e) ∨ Completed i s t := by
  cases i
  case ret => exact execRet_cases h
  case callNNN => exact execCallNNN_cases h
  case drwVxVyN => exact execDrwVxVyN_cases h
  case ldFVx => exact execLdFVx_cases h
  case skpVx => exact execSkpVx_cases h
  case sknpVx => exact execSknpVx_cases h
  case ldBVx => exact execLdBVx_cases h
  case ldMemIVx => exact execLdMemIVx_cases h
  case ldVxMemI => exact execLdVxMemI_cases h
  case ldVxK x =>
    cases h
    refine .inr ⟨rfl, rfl, rfl, .inl rfl, .inr ⟨x, rfl, rfl, ?_, rfl⟩, .inl ⟨rfl, rfl⟩, .inl ?_,
      ?_, ?_, ?_, ?_, ?_, ?_, ?_⟩ <;> simp [State.getV]
  case seVxNN | sneVxNN | seVxVy | sneVxVy =>
    cases h
    refine .inr ⟨by simp, by simp, by simp, .inl (by simp), .inl (by simp), .inl ⟨by simp, by simp⟩,
      skipIf_pc_cases s _, ?_, ?_, ?_, ?_, ?_, ?_, ?_⟩ <;> simp
  case jpNNN nnn =>
    cases h
    refine .inr ⟨rfl, rfl, rfl, .inl rfl, .inl rfl, .inl ⟨rfl, rfl⟩, .inr (.inr (.inr (.inl ?_))),
      ?_, ?_, ?_, ?_, ?_, ?_, ?_⟩ <;> simp
    omega
  case jpV0NNN nnn =>
    cases h
    refine .inr ⟨rfl, rfl, rfl, .inl rfl, .inl rfl, .inl ⟨rfl, rfl⟩, .inr (.inr (.inr (.inl ?_))),
      ?_, ?_, ?_, ?_, ?_, ?_, ?_⟩ <;> simp
    have := (s.advancePC.jumpOffset nnn).isLt
    omega
  case addVxVy | subVxVy | shrVxVy | subnVxVy | shlVxVy =>
    cases h
    refine .inr ⟨rfl, rfl, rfl, .inl rfl, .inl rfl, .inl ⟨rfl, rfl⟩, .inr (.inl rfl), ?_, ?_, ?_, ?_, ?_, ?_, ?_⟩ <;>
      simp [Instr.mayWrite, State.getV_setV, State.getV_setFlag]
    intro r h1 h2
    simp [h2, Ne.symm h1]
  case rndVxNN =>
    cases h
    refine .inr ⟨rfl, rfl, rfl, .inl rfl, .inl rfl, .inl ⟨rfl, rfl⟩, .inr (.inl rfl),
      fun r hr => State.getV_setV_other _ _ (Ne.symm (by simpa [Instr.mayWrite] using hr)), ?_, ?_, ?_, ?_, ?_, ?_⟩ <;>
      simp [randomLoad]
  case cls | ldINNN | addIVx =>
    cases h
    refine .inr ⟨rfl, rfl, rfl, .inl rfl, .inl rfl, .inl ⟨rfl, rfl⟩, .inr (.inl rfl), fun _ _ => rfl,
      ?_, ?_, ?_, ?_, ?_, ?_⟩ <;> simp
  case ldDTVx x =>
    cases h
    refine .inr ⟨rfl, rfl, rfl, .inl rfl, .inl rfl, .inl ⟨rfl, rfl⟩, .inr (.inl rfl), fun _ _ => rfl,
      ?_, ?_, ?_, ?_, fun _ => ⟨x, rfl, rfl⟩, ?_⟩ <;> simp
  case ldSTVx x =>
    cases h
    refine .inr ⟨rfl, rfl, rfl, .inl rfl, .inl rfl, .inl ⟨rfl, rfl⟩, .inr (.inl rfl), fun _ _ => rfl,
      ?_, ?_, ?_, ?_, ?_, fun _ => ⟨x, rfl, rfl⟩⟩ <;> simp
  all_goals
    cases h
    refine .inr ⟨rfl, rfl, rfl, .inl rfl, .inl rfl, .inl ⟨rfl, rfl⟩, .inr (.inl rfl),
      fun r hr => State.getV_setV_other _ _ (Ne.symm (by simpa [Instr.mayWrite] using hr)), ?_, ?_, ?_, ?_, ?_, ?_⟩ <;>
      simp

end Sys2Proof.Machine
end

