-- ==== Sys2Proof/Laws/PerInstr.lean ====
section
/-! SUPPORT. Per instruction: the word the encoder gives is accepted by the instruction's own row of the opcode map
(30_encoding.md R74). -/

namespace Sys2Proof.Laws.EncodesItsRow

/-- The instruction's encoding matches its row: `encode i & mask = match`. -/
def Statement (i : Instr) : Prop := ∃ r, opcodeRows[i.rowIndex]? = some r ∧ r.accepts (encode i) = true

theorem nnn_op (op : BitVec 4) (nnn : Addr12) : encodeNNN op nnn &&& 0xF000#16 = encodeNNN op 0 := by
  apply BitVec.eq_of_getLsbD_eq
  intro k hk
  simp only [encodeNNN, BitVec.getLsbD_and, BitVec.getLsbD_append]
  interval_cases k <;> simp

theorem xnn_op (op : BitVec 4) (x : Reg) (nn : Byte) : encodeXNN op x nn &&& 0xF000#16 = encodeXNN op 0 0 := by
  apply BitVec.eq_of_getLsbD_eq
  intro k hk
  simp only [encodeXNN, regField, BitVec.getLsbD_and, BitVec.getLsbD_append]
  interval_cases k <;> simp

theorem xnn_fn8 (op : BitVec 4) (x : Reg) (nn : Byte) : encodeXNN op x nn &&& 0xF0FF#16 = encodeXNN op 0 nn := by
  apply BitVec.eq_of_getLsbD_eq
  intro k hk
  simp only [encodeXNN, regField, BitVec.getLsbD_and, BitVec.getLsbD_append]
  interval_cases k <;> simp

theorem xyn_fn (op : BitVec 4) (x y : Reg) (n : BitVec 4) :
    encodeXYN op x y n &&& 0xF00F#16 = encodeXYN op 0 0 n := by
  apply BitVec.eq_of_getLsbD_eq
  intro k hk
  simp only [encodeXYN, regField, BitVec.getLsbD_and, BitVec.getLsbD_append]
  interval_cases k <;> simp

theorem xyn_op (op : BitVec 4) (x y : Reg) (n : BitVec 4) :
    encodeXYN op x y n &&& 0xF000#16 = encodeXYN op 0 0 0 := by
  apply BitVec.eq_of_getLsbD_eq
  intro k hk
  simp only [encodeXYN, regField, BitVec.getLsbD_and, BitVec.getLsbD_append]
  interval_cases k <;> simp

theorem of_eq {i : Instr} {r : OpcodeRow} (hr : opcodeRows[i.rowIndex]? = some r)
    (h : encode i &&& r.mask = r.value) : Statement i := ⟨r, hr, by simp [OpcodeRow.accepts, h]⟩

theorem cls : Statement .cls := of_eq rfl rfl
theorem ret : Statement .ret := of_eq rfl rfl
theorem jpNNN (nnn : Addr12) : Statement (.jpNNN nnn) := of_eq rfl (nnn_op ..)
theorem callNNN (nnn : Addr12) : Statement (.callNNN nnn) := of_eq rfl (nnn_op ..)
theorem seVxNN (x : Reg) (nn : Byte) : Statement (.seVxNN x nn) := of_eq rfl (xnn_op ..)
theorem sneVxNN (x : Reg) (nn : Byte) : Statement (.sneVxNN x nn) := of_eq rfl (xnn_op ..)
theorem seVxVy (x y : Reg) : Statement (.seVxVy x y) := of_eq rfl (xyn_fn ..)
theorem ldVxNN (x : Reg) (nn : Byte) : Statement (.ldVxNN x nn) := of_eq rfl (xnn_op ..)
theorem addVxNN (x : Reg) (nn : Byte) : Statement (.addVxNN x nn) := of_eq rfl (xnn_op ..)
theorem ldVxVy (x y : Reg) : Statement (.ldVxVy x y) := of_eq rfl (xyn_fn ..)
theorem orVxVy (x y : Reg) : Statement (.orVxVy x y) := of_eq rfl (xyn_fn ..)
theorem andVxVy (x y : Reg) : Statement (.andVxVy x y) := of_eq rfl (xyn_fn ..)
theorem xorVxVy (x y : Reg) : Statement (.xorVxVy x y) := of_eq rfl (xyn_fn ..)
theorem addVxVy (x y : Reg) : Statement (.addVxVy x y) := of_eq rfl (xyn_fn ..)
theorem subVxVy (x y : Reg) : Statement (.subVxVy x y) := of_eq rfl (xyn_fn ..)
theorem shrVxVy (x y : Reg) : Statement (.shrVxVy x y) := of_eq rfl (xyn_fn ..)
theorem subnVxVy (x y : Reg) : Statement (.subnVxVy x y) := of_eq rfl (xyn_fn ..)
theorem shlVxVy (x y : Reg) : Statement (.shlVxVy x y) := of_eq rfl (xyn_fn ..)
theorem sneVxVy (x y : Reg) : Statement (.sneVxVy x y) := of_eq rfl (xyn_fn ..)
theorem ldINNN (nnn : Addr12) : Statement (.ldINNN nnn) := of_eq rfl (nnn_op ..)
theorem jpV0NNN (nnn : Addr12) : Statement (.jpV0NNN nnn) := of_eq rfl (nnn_op ..)
theorem rndVxNN (x : Reg) (nn : Byte) : Statement (.rndVxNN x nn) := of_eq rfl (xnn_op ..)
theorem drwVxVyN (x y : Reg) (n : Nat) : Statement (.drwVxVyN x y n) := of_eq rfl (xyn_op ..)
theorem skpVx (x : Reg) : Statement (.skpVx x) := of_eq rfl (xnn_fn8 ..)
theorem sknpVx (x : Reg) : Statement (.sknpVx x) := of_eq rfl (xnn_fn8 ..)
theorem ldVxDT (x : Reg) : Statement (.ldVxDT x) := of_eq rfl (xnn_fn8 ..)
theorem ldVxK (x : Reg) : Statement (.ldVxK x) := of_eq rfl (xnn_fn8 ..)
theorem ldDTVx (x : Reg) : Statement (.ldDTVx x) := of_eq rfl (xnn_fn8 ..)
theorem ldSTVx (x : Reg) : Statement (.ldSTVx x) := of_eq rfl (xnn_fn8 ..)
theorem addIVx (x : Reg) : Statement (.addIVx x) := of_eq rfl (xnn_fn8 ..)
theorem ldFVx (x : Reg) : Statement (.ldFVx x) := of_eq rfl (xnn_fn8 ..)
theorem ldBVx (x : Reg) : Statement (.ldBVx x) := of_eq rfl (xnn_fn8 ..)
theorem ldMemIVx (x : Reg) : Statement (.ldMemIVx x) := of_eq rfl (xnn_fn8 ..)
theorem ldVxMemI (x : Reg) : Statement (.ldVxMemI x) := of_eq rfl (xnn_fn8 ..)

end Sys2Proof.Laws.EncodesItsRow
end

