-- ==== Sys2Proof/Tests/Slice0.lean ====
section
/-! SUPPORT. The model's own tests. Expected results are the spec's: an instruction's bits from the encoding strings of
spec/opcode_table.json, its effect from a vector of 95_test_vectors.md (S or V and a number), or from the rule named. Last
stand the witnesses: for each statement with hypotheses, states and operands that meet all of them together. -/

namespace Sys2Proof.Tests

open Sys2Proof Sys2Proof.Machine

/-! ### Well-formedness -/

/-- R72: N is 0 to 15. -/
theorem test_wellFormed_refuses_sixteen_rows : (Instr.drwVxVyN 0 0 16).wellFormed = false := by decide
theorem test_wellFormed_accepts_fifteen_rows : (Instr.drwVxVyN 0 0 15).wellFormed = true := by decide

/-! ### Decoding, each word written out bit by bit -/

theorem test_decode_cls : decode 0b0000000011100000#16 = .ok .cls := by decide
theorem test_decode_ret : decode 0b0000000011101110#16 = .ok .ret := by decide
theorem test_decode_jpNNN : decode 0b0001_000100100011#16 = .ok (.jpNNN 0x123) := by decide
theorem test_decode_callNNN : decode 0b0010_101111001101#16 = .ok (.callNNN 0xBCD) := by decide
theorem test_decode_seVxNN : decode 0b0011_0101_10100001#16 = .ok (.seVxNN 5 0xA1) := by decide
theorem test_decode_sneVxNN : decode 0b0100_1010_01111110#16 = .ok (.sneVxNN 10 0x7E) := by decide
theorem test_decode_seVxVy : decode 0b0101_0001_0010_0000#16 = .ok (.seVxVy 1 2) := by decide
theorem test_decode_ldVxNN : decode 0b0110_1111_00010010#16 = .ok (.ldVxNN 15 0x12) := by decide
theorem test_decode_addVxNN : decode 0b0111_0000_11111111#16 = .ok (.addVxNN 0 0xFF) := by decide
theorem test_decode_ldVxVy : decode 0b1000_0011_0100_0000#16 = .ok (.ldVxVy 3 4) := by decide
theorem test_decode_orVxVy : decode 0b1000_0011_0100_0001#16 = .ok (.orVxVy 3 4) := by decide
theorem test_decode_andVxVy : decode 0b1000_0011_0100_0010#16 = .ok (.andVxVy 3 4) := by decide
theorem test_decode_xorVxVy : decode 0b1000_0011_0100_0011#16 = .ok (.xorVxVy 3 4) := by decide
theorem test_decode_addVxVy : decode 0b1000_0011_0100_0100#16 = .ok (.addVxVy 3 4) := by decide
theorem test_decode_subVxVy : decode 0b1000_0011_0100_0101#16 = .ok (.subVxVy 3 4) := by decide
theorem test_decode_shrVxVy : decode 0b1000_0011_0100_0110#16 = .ok (.shrVxVy 3 4) := by decide
theorem test_decode_subnVxVy : decode 0b1000_0011_0100_0111#16 = .ok (.subnVxVy 3 4) := by decide
theorem test_decode_shlVxVy : decode 0b1000_0011_0100_1110#16 = .ok (.shlVxVy 3 4) := by decide
theorem test_decode_sneVxVy : decode 0b1001_0110_0111_0000#16 = .ok (.sneVxVy 6 7) := by decide
theorem test_decode_ldINNN : decode 0b1010_100000000001#16 = .ok (.ldINNN 0x801) := by decide
theorem test_decode_jpV0NNN : decode 0b1011_001011111111#16 = .ok (.jpV0NNN 0x2FF) := by decide
theorem test_decode_rndVxNN : decode 0b1100_0011_00001111#16 = .ok (.rndVxNN 3 0x0F) := by decide
theorem test_decode_drwVxVyN : decode 0b1101_0001_0010_1111#16 = .ok (.drwVxVyN 1 2 15) := by decide
theorem test_decode_skpVx : decode 0b1110_0101_10011110#16 = .ok (.skpVx 5) := by decide
theorem test_decode_sknpVx : decode 0b1110_0101_10100001#16 = .ok (.sknpVx 5) := by decide
theorem test_decode_ldVxDT : decode 0b1111_1001_00000111#16 = .ok (.ldVxDT 9) := by decide
theorem test_decode_ldVxK : decode 0b1111_1001_00001010#16 = .ok (.ldVxK 9) := by decide
theorem test_decode_ldDTVx : decode 0b1111_1001_00010101#16 = .ok (.ldDTVx 9) := by decide
theorem test_decode_ldSTVx : decode 0b1111_1001_00011000#16 = .ok (.ldSTVx 9) := by decide
theorem test_decode_addIVx : decode 0b1111_1001_00011110#16 = .ok (.addIVx 9) := by decide
theorem test_decode_ldFVx : decode 0b1111_1001_00101001#16 = .ok (.ldFVx 9) := by decide
theorem test_decode_ldBVx : decode 0b1111_1001_00110011#16 = .ok (.ldBVx 9) := by decide
theorem test_decode_ldMemIVx : decode 0b1111_1001_01010101#16 = .ok (.ldMemIVx 9) := by decide
theorem test_decode_ldVxMemI : decode 0b1111_1001_01100101#16 = .ok (.ldVxMemI 9) := by decide

/-- V6 to V10: the illegal words there are refused as themselves. -/
theorem test_decode_refuses_illegal_words :
    ([0x0123, 0x0000, 0x5121, 0x9121, 0x8008, 0x800F, 0xE0A0, 0xF000, 0xF0FF] : List Word).map decode =
      [.error (.unknownOpcode 0x0123), .error (.unknownOpcode 0x0000), .error (.unknownOpcode 0x5121),
       .error (.unknownOpcode 0x9121), .error (.unknownOpcode 0x8008), .error (.unknownOpcode 0x800F),
       .error (.unknownOpcode 0xE0A0), .error (.unknownOpcode 0xF000), .error (.unknownOpcode 0xF0FF)] := by decide

/-- R70: the bytes of an instruction, the high byte first; the rest of the bytes is left. -/
theorem test_decodeBytes_takes_two : decodeBytes [0x61, 0x23, 0x45] = .ok (.ldVxNN 1 0x23, [0x45]) := by decide
theorem test_decodeBytes_refuses_one_byte : decodeBytes [0x61] = .error .tooFewBytes := by decide

/-- R74: "The masks are disjoint: no word matches two rows": two rows differ in a bit that both fix. -/
theorem test_opcode_rows_are_disjoint :
    opcodeRows.Pairwise fun r q => r.value &&& (r.mask &&& q.mask) ≠ q.value &&& (r.mask &&& q.mask) := by decide

/-! ### One step of each instruction -/

/-- The reset state of a configuration with a word under test at 0x200. -/
def start (w : Word) (cfg : Config := Config.default) : State := (State.initial cfg).storeWord w

/-- The state after one step; a stop leaves the state, which every test below tells from its result. -/
def after (s : State) : State :=
  match step s with
  | .next t => t
  | .fault _ => s
  | .refused _ => s

/-- The same for one instruction. -/
def afterExec (i : Instr) (s : State) : State :=
  match exec i s with
  | .next t => t
  | .fault _ => s
  | .refused _ => s

/-- The error latched. -/
def errorOf (s : State) : Option FatalError := s.fault.map FatalRecord.error

/-- R210's table of codes. -/
theorem test_error_codes :
    ([.outOfBounds 0, .unknownOpcode 0, .stackOverflow, .stackUnderflow, .invalidRegister 0, .programTooLarge 0,
      .unspecifiedOperand 0] : List FatalError).map FatalError.code = [1, 2, 3, 4, 5, 6, 7] := by decide

/-- The pixels set, as (x, y), by rows. -/
def pixelsSet (s : State) : List (Fin 64 × Fin 32) :=
  (List.finRange 32).flatMap fun y => ((List.finRange 64).filter fun x => s.disp.pixel x y).map fun x => (x, y)

/-- The configurations the vectors name, each the default but for one parameter (R8). -/
def shiftVY : Config := { Config.default with quirkShiftUsesVY := true }
def incrementI : Config := { Config.default with quirkLoadStoreIncrementsI := true }
def jumpVX : Config := { Config.default with quirkJumpUsesVX := true }
def wrapping : Config := { Config.default with quirkSpriteWrap := true }
def reservedFaults : Config := { Config.default with reservedWriteFaults := true }
def fontAt50 : Config := { Config.default with fontBase := 0x50 }

/-- The sprite bytes of the display vectors: Mem[0x300] = 0xC0, Mem[0x301] = 0x80. -/
def withSprite (s : State) : State :=
  { s with mem := s.mem.writeBytes s.cfg.fontBase 0x300 [0xC0, 0x80] }

/-- The machine with a key wait pending at an FX0A word, and no key held at the last look. -/
def waiting (x : Reg) : State :=
  { start (encode (.ldVxK x)) with wait := some { x := x, prev := Vector.replicate 16 false } }

/-! #### The cycle -/

/-- V1 -/
theorem test_fetch_at_the_last_byte :
    (after { start 0 with pc := 0xFFF }).fault = some ⟨.outOfBounds 0x1000, 0xFFF, none⟩ := by decide
/-- V3 -/
theorem test_fetch_at_an_odd_address :
    (after (({ start 0 with pc := 0x201 } : State).storeWord 0x6123)).getV 1 = 0x23 := by decide
/-- V4 -/
theorem test_first_step_of_reset : (after State.reset).fault = some ⟨.unknownOpcode 0, 0x200, some 0⟩ := by decide

/-- A word placed with `withFetchWord` is the one the next step runs, from reset and from a PC with no room for it. -/
theorem test_withFetchWord :
    (after (State.reset.withFetchWord 16 0x6F12)).getV 15 = 0x12 ∧
      (after (({ after State.reset with pc := 0xFFF } : State).withFetchWord 16 0x6F12)).getV 15 = 0x12 := by decide

/-! #### Control flow -/

/-- V20 -/
theorem test_ret_pops :
    (after { start 0x00EE with sp := 2, stack := ((State.reset.stack.set 0 0x206).set 1 0x30A) }).pc = 0x30A := by decide
/-- V21 -/
theorem test_ret_underflow : (after (start 0x00EE)).fault = some ⟨.stackUnderflow, 0x200, some 0x00EE⟩ := by decide
/-- V22 -/
theorem test_jp : (after (start 0x1FFF)).pc = 0xFFF := by decide
/-- V25: the return address of a CALL at 0xFFE is 0x1000. -/
theorem test_call_at_the_end_of_memory :
    let t := after (({ start 0 with pc := 0xFFE } : State).storeWord 0x2400)
    t.stack[0] = 0x1000 ∧ t.sp = 1 ∧ t.pc = 0x400 := by decide
/-- V24 -/
theorem test_call_overflow :
    let t := after { start 0x2400 with sp := 16 }
    t.fault = some ⟨.stackOverflow, 0x200, some 0x2400⟩ ∧ t.sp = 16 ∧ t.pc = 0x200 := by decide
/-- V26: VF is read as any register. -/
theorem test_seVxNN_taken : (after (start 0x3F00)).pc = 0x204 := by decide
/-- V27 -/
theorem test_seVxNN_not_taken : (after ((start 0x3310).setV 3 0x11)).pc = 0x202 := by decide
/-- V28 -/
theorem test_sneVxNN_taken : (after ((start 0x4310).setV 3 0x11)).pc = 0x204 := by decide
/-- R105 -/
theorem test_sneVxNN_not_taken : (after ((start 0x4311).setV 3 0x11)).pc = 0x202 := by decide
/-- V29 -/
theorem test_seVxVy_same_register : (after ((start 0x5550).setV 5 0x77)).pc = 0x204 := by decide
/-- R106 -/
theorem test_seVxVy_not_taken : (after ((start 0x5560).setV 5 0x77)).pc = 0x202 := by decide
/-- V30 -/
theorem test_sneVxVy_same_register : (after ((start 0x9550).setV 5 0x77)).pc = 0x202 := by decide
/-- R107 -/
theorem test_sneVxVy_taken : (after ((start 0x9560).setV 5 0x77)).pc = 0x204 := by decide
/-- V32: no mask. -/
theorem test_jpV0NNN_is_not_masked : (after ((start 0xBFFF).setV 0 0xFF)).pc = 0x10FE := by decide
/-- V34 -/
theorem test_jpV0NNN_quirk : (after (((start 0xB2FF jumpVX).setV 2 0x01).setV 0 0x50)).pc = 0x300 := by decide

/-! #### Load and arithmetic -/

/-- V40 -/
theorem test_ldVxNN : (after (start 0x6F12)).getV 15 = 0x12 := by decide
/-- V41 -/
theorem test_addVxNN_into_VF : (after ((start 0x7FFF).setV 15 0x01)).getV 15 = 0x00 := by decide
/-- V42 -/
theorem test_addVxNN_overflow_leaves_VF :
    let t := after (((start 0x70FF).setV 0 0x01).setV 15 0x55)
    t.getV 0 = 0x00 ∧ t.getV 15 = 0x55 := by decide
/-- R122 -/
theorem test_ldVxVy : (after (((start 0x8120).setV 1 0x05).setV 2 0x09)).getV 1 = 0x09 := by decide
/-- V44 -/
theorem test_orVxVy :
    let t := after ((((start 0x8121).setV 1 0xF0).setV 2 0x0F).setV 15 0x77)
    t.getV 1 = 0xFF ∧ t.getV 15 = 0x77 := by decide
/-- V45 -/
theorem test_andVxVy : (after (((start 0x8122).setV 1 0xF0).setV 2 0x0F)).getV 1 = 0x00 := by decide
/-- V46 -/
theorem test_xorVxVy_with_itself : (after ((start 0x8113).setV 1 0x5A)).getV 1 = 0x00 := by decide
/-- V47 -/
theorem test_xorVxVy_into_VF : (after (((start 0x8F13).setV 15 0x0F).setV 1 0xF0)).getV 15 = 0xFF := by decide
/-- S3 -/
theorem test_addVxVy_overflow :
    let t := after (((start 0x8014).setV 0 0xFF).setV 1 0x01)
    t.getV 0 = 0x00 ∧ t.getV 15 = 1 := by decide
/-- V48 -/
theorem test_addVxVy_into_VF : (after (((start 0x8F14).setV 15 0xFF).setV 1 0x01)).getV 15 = 0x01 := by decide
/-- V51 -/
theorem test_subVxVy_equal :
    let t := after (((start 0x8015).setV 0 0x42).setV 1 0x42)
    t.getV 0 = 0x00 ∧ t.getV 15 = 1 := by decide
/-- V53 -/
theorem test_subVxVy_into_VF : (after (((start 0x8F15).setV 15 0x05).setV 1 0x06)).getV 15 = 0x00 := by decide
/-- V57 -/
theorem test_shrVxVy_ignores_VY :
    let t := after (((start 0x8016).setV 0 0xFE).setV 1 0x01)
    t.getV 0 = 0x7F ∧ t.getV 15 = 0 := by decide
/-- V58 -/
theorem test_shrVxVy_quirk :
    let t := after (((start 0x8016 shiftVY).setV 0 0xFF).setV 1 0x04)
    t.getV 0 = 0x02 ∧ t.getV 15 = 0 ∧ t.getV 1 = 0x04 := by decide
/-- V54 -/
theorem test_subnVxVy_borrow :
    let t := after (((start 0x8017).setV 0 0x05).setV 1 0x03)
    t.getV 0 = 0xFE ∧ t.getV 15 = 0 := by decide
/-- V55 -/
theorem test_subnVxVy_no_borrow :
    let t := after (((start 0x8017).setV 0 0x03).setV 1 0x05)
    t.getV 0 = 0x02 ∧ t.getV 15 = 1 := by decide
/-- V62 -/
theorem test_shlVxVy_of_VF : (after ((start 0x8FFE).setV 15 0x40)).getV 15 = 0x00 := by decide
/-- V63 -/
theorem test_shlVxVy_quirk :
    let t := after (((start 0x801E shiftVY).setV 0 0x00).setV 1 0x81)
    t.getV 0 = 0x02 ∧ t.getV 15 = 1 := by decide
/-- V66 -/
theorem test_randomLoad_masks : (randomLoad 0x5C 3 0x0F State.reset).getV 3 = 0x0C := by decide
/-- V65, for whatever the draw is. -/
theorem test_rndVxNN_with_a_zero_mask (s : State) :
    exec (.rndVxNN 0 0) s = .next { s with pc := s.pc + 2, v := s.v.set 0 0, drawCount := s.drawCount + 1 } := by
  simp [exec, execRndVxNN, complete, randomLoad, State.advancePC, State.setPC, State.setV]

/-! #### Index and memory -/

/-- V70 -/
theorem test_ldINNN : (after (start 0xAFFF)).i = 0x0FFF := by decide
/-- V71 -/
theorem test_addIVx_no_mask_no_flag :
    let t := after ((({ start 0xF01E with i := 0x0FFF } : State).setV 0 0x01).setV 15 0x33)
    t.i = 0x1000 ∧ t.getV 15 = 0x33 := by decide
/-- V73 -/
theorem test_ldFVx_unspecified : errorOf (after ((start 0xF029).setV 0 0x10)) = some (.unspecifiedOperand 0x10) := by decide
/-- V75 -/
theorem test_ldFVx : (after ((start 0xF029 fontAt50).setV 0 0x01)).i = 0x55 := by decide
/-- V77 -/
theorem test_ldBVx :
    let t := after (({ start 0xF033 with i := 0x300 } : State).setV 0 0xFF)
    [t.byteAt 0x300, t.byteAt 0x301, t.byteAt 0x302] = [2, 5, 5] := by decide
/-- V79 -/
theorem test_ldBVx_out_of_bounds :
    let t := after (({ start 0xF033 with i := 0xFFE } : State).setV 0 0xFF)
    errorOf t = some (.outOfBounds 0x1000) ∧ t.byteAt 0xFFE = 0 := by decide
/-- V82 -/
theorem test_ldMemIVx_quirk :
    let t := after (((({ start 0xF255 incrementI with i := 0x300 } : State).setV 0 7).setV 1 8).setV 2 9)
    [t.byteAt 0x300, t.byteAt 0x301, t.byteAt 0x302, t.byteAt 0x303] = [7, 8, 9, 0] ∧ t.i = 0x303 := by decide
/-- V84 -/
theorem test_ldMemIVx_into_the_reserved_range :
    errorOf (after { start 0xF055 reservedFaults with i := 0x1FF }) = some (.outOfBounds 0x1FF) := by decide
/-- V86: reads of the reserved range are legal, and VX alone is loaded. -/
theorem test_ldVxMemI :
    let t := after (({ start 0xF065 reservedFaults with i := 0 } : State).setV 1 0x44)
    t.getV 0 = 0xF0 ∧ t.getV 1 = 0x44 ∧ t.i = 0 := by decide
/-- V72 -/
theorem test_ldVxMemI_out_of_bounds :
    errorOf (after { start 0xF065 with i := 0x1000 }) = some (.outOfBounds 0x1000) := by decide

/-! #### Display -/

/-- V90 -/
theorem test_cls :
    let t := after { start 0x00E0 with disp := State.reset.disp.toggle 63 31 }
    t.disp.pixel 63 31 = false ∧ t.drawFlag = true ∧ t.pc = 0x202 := by decide
/-- V91, then V96, the same draw again, then V91 once more: the display is all 0 as at the first (log 23). -/
theorem test_drwVxVyN_clips :
    let t := after (({ withSprite (start 0xD011) with i := 0x300 } : State).setV 0 0x3F)
    let u := after (t.setPC 0x200)
    let w := after (u.setPC 0x200)
    pixelsSet t = [(63, 0)] ∧ t.getV 15 = 0 ∧ pixelsSet u = [] ∧ u.getV 15 = 1 ∧
      pixelsSet w = [(63, 0)] ∧ w.getV 15 = 0 := by decide +kernel
/-- V95 -/
theorem test_drwVxVyN_wraps :
    let t := after (({ withSprite (start 0xD012 wrapping) with i := 0x300 } : State).setV 1 0x1F)
    pixelsSet t = [(0, 0), (0, 31), (1, 31)] ∧ t.getV 15 = 0 := by decide +kernel

/-! #### Input -/

/-- V110 -/
theorem test_skpVx_pressed : (after (((start 0xE59E).setV 5 7).setKey 7 true)).pc = 0x204 := by decide
/-- V112 -/
theorem test_skpVx_unspecified : errorOf (after ((start 0xE59E).setV 5 0x10)) = some (.unspecifiedOperand 0x10) := by decide
/-- V111 -/
theorem test_sknpVx_pressed : (after (((start 0xE5A1).setV 5 7).setKey 7 true)).pc = 0x202 := by decide
/-- R186 -/
theorem test_sknpVx_not_pressed : (after ((start 0xE5A1).setV 5 7)).pc = 0x204 := by decide
/-- V113: a held key is no press. -/
theorem test_ldVxK_waits :
    let t := after (after ((start 0xF10A).setKey 2 true))
    t.stepResult = .awaitingInput ∧ t.pc = 0x200 ∧ t.getV 1 = 0 := by decide
/-- V115: the lowest key. -/
theorem test_keyWaitPoll_takes_the_lowest :
    let t := after (((waiting 1).setKey 9 true).setKey 4 true)
    t.getV 1 = 4 ∧ t.pc = 0x202 ∧ t.stepResult = .ok := by decide

/-! #### Timers and the host -/

/-- V120 -/
theorem test_ldVxDT : (after { start 0xF107 with dt := 0x3C }).getV 1 = 0x3C := by decide
/-- V121 -/
theorem test_ldDTVx : (after ((start 0xF215).setV 2 0x05)).dt = 0x05 := by decide
/-- V122 -/
theorem test_ldSTVx :
    let t := after ((start 0xF218).setV 2 0x01)
    t.st = 0x01 ∧ t.soundActive = true := by decide
/-- V123 -/
theorem test_tick :
    let t := ({ start 0 with st := 1 } : State).tick
    t.dt = 0 ∧ t.st = 0 ∧ t.soundActive = false := by decide
/-- V12, and R210: its code is 6. -/
theorem test_load_too_large :
    ((start 0x6F12).load (List.replicate 3585 0)).1 = .programTooLarge 3585 ∧
      (LoadResult.programTooLarge 3585).error.map FatalError.code = some 6 := by decide +kernel
/-- V118 and R241: the wait is gone, and the image stands at 0x200. -/
theorem test_load :
    let t := ((waiting 1).load [0x12, 0x34]).2
    t.wait = none ∧ t.pc = 0x200 ∧ t.byteAt 0x200 = 0x12 ∧ t.byteAt 0x201 = 0x34 := by decide

/-! ### Witnesses: states and operands that meet a statement's hypotheses -/

theorem witness_DecodeOfEncodeIsTheInstruction : (Instr.drwVxVyN 1 2 15).wellFormed = true := by decide

theorem witness_EncodeOfDecodeIsTheWord : decode 0xD12F = .ok (.drwVxVyN 1 2 15) := by decide

theorem witness_DecodeFollowsTheOpcodeMap :
    opcodeRows[13]? = some ⟨"ADD_VX__VY", 0x8004, 0xF00F⟩ ∧
      (⟨"ADD_VX__VY", 0x8004, 0xF00F⟩ : OpcodeRow).accepts 0x8AB4 = true ∧
      decode 0x8AB4 = .ok (.addVxVy 0xA 0xB) ∧ (Instr.addVxVy 0xA 0xB).rowIndex = 13 := by decide

theorem witness_BytesOfAnInstructionDecode : (Instr.ldVxNN 1 0x23).wellFormed = true := by decide

/-- At the last address with room for a word. -/
theorem witness_StepRunsTheDecodedInstruction :
    let s := ({ start 0 with pc := 0xFFE } : State).storeWord 0x6F12
    s.fault = none ∧ s.wait = none ∧ s.pc.toNat ≤ 0xFFE ∧
      decode (wordOfBytes (s.byteAt s.pc.toNat) (s.byteAt (s.pc.toNat + 1))) = .ok (.ldVxNN 15 0x12) := by decide

/-- An odd PC, and the last PC with room. -/
theorem witness_FetchNeedsNoAlignment :
    ({ start 0 with pc := 0x201 } : State).pc.toNat + 1 ≤ 0xFFF ∧
      ({ start 0 with pc := 0xFFE } : State).pc.toNat + 1 ≤ 0xFFF := by decide

/-- The last byte, the first address out of range, and an illegal word. -/
theorem witness_FetchAndDecodeErrorsAreFatal :
    (0xFFE < ({ start 0 with pc := 0xFFF } : State).pc.toNat ∧ 0xFFE < ({ start 0 with pc := 0x1000 } : State).pc.toNat) ∧
    (start 0x0123).fault = none ∧ (start 0x0123).wait = none ∧ (start 0x0123).fetch = .ok 0x0123 ∧
      (∀ i, decode 0x0123 ≠ .ok i) ∧ step (start 0x0123) = .next (after (start 0x0123)) ∧
      (after (start 0x0123)).fault = some ⟨.unknownOpcode 0x0123, 0x200, some 0x0123⟩ :=
  ⟨by decide, rfl, rfl, rfl, fun _ h => (nomatch h), rfl, by decide⟩

/-- With a word in the record, and without one. -/
theorem witness_RaisingKeepsNoWrite :
    (step (start 0x00EE) = .next (after (start 0x00EE)) ∧
      (after (start 0x00EE)).fault = some ⟨.stackUnderflow, 0x200, some 0x00EE⟩) ∧
    (step { start 0 with pc := 0xFFF } = .next (after { start 0 with pc := 0xFFF }) ∧
      (after { start 0 with pc := 0xFFF }).fault = some ⟨.outOfBounds 0x1000, 0xFFF, none⟩) :=
  ⟨⟨rfl, by decide⟩, ⟨rfl, by decide⟩⟩

/-- Each error that an instruction raises. -/
theorem witness_ErrorsComeFromTheirInstructions :
    (exec .ret (start 0) = .next (afterExec .ret (start 0)) ∧
      errorOf (afterExec .ret (start 0)) = some .stackUnderflow) ∧
    (exec (.callNNN 0) { start 0 with sp := 16 } = .next (afterExec (.callNNN 0) { start 0 with sp := 16 }) ∧
      errorOf (afterExec (.callNNN 0) { start 0 with sp := 16 }) = some .stackOverflow) ∧
    (exec (.ldBVx 0) { start 0 with i := 0xFFE } = .next (afterExec (.ldBVx 0) { start 0 with i := 0xFFE }) ∧
      errorOf (afterExec (.ldBVx 0) { start 0 with i := 0xFFE }) = some (.outOfBounds 0x1000)) ∧
    (exec (.skpVx 0) ((start 0).setV 0 0x10) = .next (afterExec (.skpVx 0) ((start 0).setV 0 0x10)) ∧
      errorOf (afterExec (.skpVx 0) ((start 0).setV 0 0x10)) = some (.unspecifiedOperand 0x10)) :=
  ⟨⟨rfl, by decide⟩, ⟨rfl, by decide⟩, ⟨rfl, by decide⟩, ⟨rfl, by decide⟩⟩

/-- A latched error, and the one move that clears it. -/
theorem witness_LatchedErrorStaysUntilLoad :
    (after State.reset).fault = some ⟨.unknownOpcode 0, 0x200, some 0⟩ ∧
      (after State.reset).onEvent (.load [0x12]) = .next ((after State.reset).load [0x12]).2 ∧
      ((after State.reset).load [0x12]).2.fault ≠ some ⟨.unknownOpcode 0, 0x200, some 0⟩ :=
  ⟨by decide, rfl, by decide⟩

/-- Faulted, and halted (V23). -/
theorem witness_FinishedRunStaysFinished : (after State.reset).RunIsOver ∧ (start 0x1200).RunIsOver :=
  ⟨.inl (by decide), .inr ⟨0x200, by decide⟩⟩

/-- The last byte, the last word, and the first access out of range. -/
theorem witness_MemReadGivesTheBytesInOrder :
    (1 ≤ 1 ∧ 0xFFF + 1 - 1 ≤ 0xFFF) ∧
    (1 ≤ 2 ∧ 0xFFE + 2 - 1 ≤ 0xFFF ∧ 0xFFE = ({ start 0 with pc := 0xFFE } : State).pc.toNat) ∧
    (1 ≤ 2 ∧ 0xFFF < 0xFFF + 2 - 1) := by decide

/-- The end of memory on both sides, and the end of the reserved range on both sides. -/
theorem witness_MemWriteChangesOnlyItsBytes :
    (start 0 reservedFaults).MemoryCanonical ∧ ([1, 2] : List Byte) ≠ [] ∧
    0xFFF < 0xFFF + ([1, 2] : List Byte).length - 1 ∧
    (0x1FF + ([1, 2] : List Byte).length - 1 ≤ 0xFFF ∧ (start 0 reservedFaults).cfg.reservedWriteFaults = true ∧
      0x1FF < 0x200) ∧
    (0xFFE + ([1, 2] : List Byte).length - 1 ≤ 0xFFF ∧
      ((start 0 reservedFaults).cfg.reservedWriteFaults = true → 0x200 ≤ 0xFFE)) := by decide

theorem witness_CallPushesOrOverflows :
    ({ start 0 with sp := 16 } : State).sp = 16 ∧ ({ start 0 with sp := 15 } : State).sp.toNat < 16 := by decide

theorem witness_ReturnPopsOrUnderflows :
    (start 0).sp = 0 ∧ (0 < ({ start 0 with sp := 1 } : State).sp.toNat ∧ ({ start 0 with sp := 1 } : State).sp.toNat ≤ 16) ∧
      (0 < ({ start 0 with sp := 16 } : State).sp.toNat ∧ ({ start 0 with sp := 16 } : State).sp.toNat ≤ 16) := by decide

theorem witness_StackOutsideTheSpecStops : 16 < ({ start 0 with sp := 17 } : State).sp.toNat := by decide

/-- A CALL and its RET, with a changed register and PC between them (S7). -/
theorem witness_ReturnResumesAfterItsCall :
    let s := start 0x2300
    let t := afterExec (.callNNN 0x300) s
    let u := (t.setV 0 1).setPC 0x310
    s.sp.toNat < 16 ∧ exec (.callNNN 0x300) s = .next t ∧ u.sp = t.sp ∧ u.stack = t.stack :=
  ⟨by decide, rfl, rfl, rfl⟩

/-- A step that runs a jump. -/
theorem not_runs_of_jump {i : Instr} (h : (start 0x1200).Runs i) : i = .jpNNN 0x200 := by
  have hd : decode (start 0x1200).wordAtPC = .ok (.jpNNN 0x200) := by decide
  exact Except.ok.inj (h.2.2.2.symm.trans hd)

theorem witness_OnlyRandomLoadReadsTheDraw : ∀ x nn, ¬ (start 0x1200).Runs (.rndVxNN x nn) :=
  fun _ _ h => nomatch not_runs_of_jump h

theorem witness_FontAddressOfADigit :
    (((start 0).setV 3 0x0F).getV 3).toNat ≤ 0xF ∧ 0xF < (((start 0).setV 3 0x10).getV 3).toNat := by decide

theorem witness_FontSpritesStandAtTheirAddress :
    let s := (State.initial fontAt50).setV 3 0x0F
    s.cfg = fontAt50 ∧ s.mem = (State.initial fontAt50).mem ∧ (s.getV 3).toNat = (15 : Fin 16).val ∧
      exec (.ldFVx 3) s = .next (afterExec (.ldFVx 3) s) :=
  ⟨rfl, rfl, by decide, rfl⟩

/-- The last three bytes, the first I out of range, and the end of the reserved range. -/
theorem witness_DecimalDigitsAreStored :
    (start 0 reservedFaults).MemoryCanonical ∧
    (({ start 0 reservedFaults with i := 0xFFD } : State).i.toNat + 2 ≤ 0xFFF ∧
      ((start 0 reservedFaults).cfg.reservedWriteFaults = true → 0x200 ≤ ({ start 0 with i := 0xFFD } : State).i.toNat)) ∧
    0xFFF < ({ start 0 reservedFaults with i := 0xFFE } : State).i.toNat + 2 ∧
    ((start 0 reservedFaults).cfg.reservedWriteFaults = true ∧ ({ start 0 with i := 0x1FF } : State).i.toNat < 0x200) := by
  decide

theorem witness_BulkStoreWritesTheRegisters :
    (start 0 reservedFaults).MemoryCanonical ∧
    (({ start 0 reservedFaults with i := 0xFF0 } : State).i.toNat + (15 : Reg).val ≤ 0xFFF ∧
      ((start 0 reservedFaults).cfg.reservedWriteFaults = true → 0x200 ≤ ({ start 0 with i := 0xFF0 } : State).i.toNat)) ∧
    0xFFF < ({ start 0 reservedFaults with i := 0xFF1 } : State).i.toNat + (15 : Reg).val ∧
    ((start 0 reservedFaults).cfg.reservedWriteFaults = true ∧ ({ start 0 with i := 0x1FF } : State).i.toNat < 0x200) := by
  decide

theorem witness_BulkLoadFillsTheRegisters :
    ({ start 0 with i := 0xFF0 } : State).i.toNat + (15 : Reg).val ≤ 0xFFF ∧
      0xFFF < ({ start 0 with i := 0xFF1 } : State).i.toNat + (15 : Reg).val := by decide

/-- A store, the registers cleared, and I set again (S13). -/
theorem witness_BulkLoadRecoversABulkStore :
    let s := (({ start 0 incrementI with i := 0x400 } : State).setV 0 0x11).setV 1 0x22
    let t := afterExec (.ldMemIVx 1) s
    let u := ({ t with i := 0x400 }.setV 0 0).setV 1 0
    s.MemoryCanonical ∧ s.i.toNat + (1 : Reg).val ≤ 0xFFF ∧ (s.cfg.reservedWriteFaults = true → 0x200 ≤ s.i.toNat) ∧
      exec (.ldMemIVx 1) s = .next t ∧ u.mem = t.mem ∧ u.cfg = t.cfg ∧ u.i = s.i :=
  ⟨by decide, by decide, by decide, rfl, rfl, rfl, by decide⟩

/-- No rows, and the last 15 bytes. -/
theorem witness_DrawFlipsExactlyTheCoveredPixels :
    (0 ≤ 15 ∧ (0 = 0 ∨ (start 0).i.toNat + 0 - 1 ≤ 0xFFF)) ∧
    (15 ≤ 15 ∧ (15 = 0 ∨ ({ start 0 with i := 0xFF1 } : State).i.toNat + 15 - 1 ≤ 0xFFF)) := by decide

theorem witness_DrawOutOfBoundsIsFatal : 0 < 2 ∧ 0xFFF < ({ start 0 with i := 0xFFF } : State).i.toNat + 2 - 1 := by decide

/-- The sprite of V91 drawn twice. -/
theorem witness_DrawingTwiceRestoresTheDisplay :
    let s := ({ withSprite (start 0xD011) with i := 0x300 } : State).setV 0 0x3F
    let t := afterExec (.drwVxVyN 0 1 1) s
    let w := afterExec (.drwVxVyN 0 1 1) t
    1 ≤ 15 ∧ exec (.drwVxVyN 0 1 1) s = .next t ∧ t.disp = t.disp ∧ t.cfg = s.cfg ∧ t.i = s.i ∧
      t.getV 0 = s.getV 0 ∧ t.getV 1 = s.getV 1 ∧
      (∀ k, k < 1 → t.byteAt (s.i.toNat + k) = s.byteAt (s.i.toNat + k)) ∧
      exec (.drwVxVyN 0 1 1) t = .next w ∧ (1 = 0 ∨ s.i.toNat + 1 - 1 ≤ 0xFFF) :=
  ⟨by decide, rfl, rfl, rfl, rfl, by decide, by decide, fun _ _ => rfl, rfl, by decide⟩

/-- A clear of a set pixel. -/
theorem witness_OnlyDrawInstructionsChangeTheDisplay :
    let s : State := { start 0x00E0 with disp := State.reset.disp.toggle 63 31 }
    step s = .next (after s) ∧ (after s).disp.pixel 63 31 ≠ s.disp.pixel 63 31 :=
  ⟨rfl, by decide⟩

theorem witness_KeySkipsTestTheNamedKey :
    (((start 0).setV 5 15).getV 5).toNat < 16 ∧ 0xF < (((start 0).setV 5 16).getV 5).toNat := by decide

theorem witness_KeyWaitBeginsWithoutAdvancing : (start 0).fault = none := rfl

/-- No key, and the keys 4 and 9 newly pressed, 4 the lowest. -/
theorem witness_KeyWaitPollTakesTheLowestNewKey :
    let prev : KeyStates := Vector.replicate 16 false
    let s := ((waiting 1).setKey 9 true).setKey 4 true
    ((waiting 1).fault = none ∧ (waiting 1).wait = some ⟨1, prev⟩ ∧
      ∀ k : KeyIndex, (waiting 1).key[k.val] = true → prev[k.val] = true) ∧
    (s.fault = none ∧ s.wait = some ⟨1, prev⟩ ∧ s.key[(4 : KeyIndex).val] = true ∧ prev[(4 : KeyIndex).val] = false ∧
      ∀ j : KeyIndex, j < 4 → s.key[j.val] = true → prev[j.val] = true) := by decide

theorem witness_KeyWaitHoldsUntilAPress :
    (start 0xF30A).fault = none ∧ (start 0xF30A).key[(7 : KeyIndex).val] = false ∧
      exec (.ldVxK 3) (start 0xF30A) = .next (afterExec (.ldVxK 3) (start 0xF30A)) :=
  ⟨rfl, by decide, rfl⟩

theorem witness_KeysAreTheHostsAndReadByThree :
    ((start 0).onEvent (.setKey 2 true) = .next ((start 0).setKey 2 true) ∧ ((start 0).setKey 2 true).key ≠ (start 0).key) ∧
    ((start 0x1200).fault ≠ none ∨ (start 0x1200).wait = none) ∧
    (∀ x, ¬ (start 0x1200).Runs (.skpVx x) ∧ ¬ (start 0x1200).Runs (.sknpVx x) ∧ ¬ (start 0x1200).Runs (.ldVxK x)) :=
  ⟨⟨rfl, by decide⟩, .inr rfl, fun _ =>
    ⟨fun h => (nomatch not_runs_of_jump h), fun h => (nomatch not_runs_of_jump h), fun h => (nomatch not_runs_of_jump h)⟩⟩

theorem witness_DelayTimerHasOneWriterOneReader :
    (step ((start 0xF215).setV 2 5) = .next (after ((start 0xF215).setV 2 5)) ∧
      (after ((start 0xF215).setV 2 5)).dt ≠ ((start 0xF215).setV 2 5).dt) ∧
    (∀ x, ¬ (start 0x1200).Runs (.ldVxDT x)) :=
  ⟨⟨rfl, by decide⟩, fun _ h => nomatch not_runs_of_jump h⟩

theorem witness_SoundTimerIsReadOnlyByTheHost :
    step ((start 0xF218).setV 2 1) = .next (after ((start 0xF218).setV 2 1)) ∧
      (after ((start 0xF218).setV 2 1)).st ≠ ((start 0xF218).setV 2 1).st :=
  ⟨rfl, by decide⟩

/-- V13 and V12. -/
theorem witness_LoadResetsAndPlacesTheImage :
    (List.replicate 3584 (0 : Byte)).length ≤ 3584 ∧ 3584 < (List.replicate 3585 (0 : Byte)).length := by
  rw [List.length_replicate, List.length_replicate]; omega

/-- A bulk load of V0 and V1 leaves V2. -/
theorem witness_RegistersOutsideTheDestinationsStay :
    exec (.ldVxMemI 1) (start 0) = .next (afterExec (.ldVxMemI 1) (start 0)) ∧ (Instr.ldVxMemI 1).mayWrite 2 = false :=
  ⟨rfl, by decide⟩

/-- The bytes below and above three stored digits. -/
theorem witness_BytesOutsideTheStoreStay :
    let s : State := { start 0 with i := 0x300 }
    s.MemoryCanonical ∧ exec (.ldBVx 0) s = .next (afterExec (.ldBVx 0) s) ∧
      (0x2FF < s.indexAddr ∨ s.indexAddr + (Instr.ldBVx 0).storeLength ≤ 0x2FF) ∧
      (0x303 < s.indexAddr ∨ s.indexAddr + (Instr.ldBVx 0).storeLength ≤ 0x303) :=
  ⟨by decide, rfl, by decide, by decide⟩

/-- One instruction for each clause. -/
theorem witness_SpecialStateHasItsWriters :
    (exec (.ldINNN 5) (start 0) = .next (afterExec (.ldINNN 5) (start 0)) ∧
      (afterExec (.ldINNN 5) (start 0)).i ≠ (start 0).i) ∧
    (exec (.callNNN 5) (start 0) = .next (afterExec (.callNNN 5) (start 0)) ∧
      (afterExec (.callNNN 5) (start 0)).sp ≠ (start 0).sp) ∧
    (exec .cls (start 0) = .next (afterExec .cls (start 0)) ∧ (afterExec .cls (start 0)).drawFlag ≠ (start 0).drawFlag) ∧
    (exec (.ldVxK 5) (start 0) = .next (afterExec (.ldVxK 5) (start 0)) ∧
      (afterExec (.ldVxK 5) (start 0)).wait ≠ (start 0).wait) ∧
    (exec (.rndVxNN 5 0) (start 0) = .next (afterExec (.rndVxNN 5 0) (start 0)) ∧
      (afterExec (.rndVxNN 5 0) (start 0)).drawCount ≠ (start 0).drawCount) :=
  ⟨⟨rfl, by decide⟩, ⟨rfl, by decide⟩, ⟨rfl, by decide⟩, ⟨rfl, by decide⟩, ⟨rfl, by decide⟩⟩

/-- A state other than reset with the invariants: a return address on the stack, and a wait pending at its word. -/
theorem inv_waiting :
    ({ waiting 3 with sp := 1, stack := State.reset.stack.set 0 0x1000 } : State).Inv :=
  ⟨by decide, by decide, by decide, by decide, by decide, by decide⟩

theorem witness_StepKeepsTheInvariants :
    let s : State := { waiting 3 with sp := 1, stack := State.reset.stack.set 0 0x1000 }
    s.Inv ∧ step s = .next (after s) :=
  ⟨inv_waiting, rfl⟩

theorem witness_HostMovesKeepTheInvariants :
    ({ waiting 3 with sp := 1, stack := State.reset.stack.set 0 0x1000 } : State).Inv := inv_waiting

end Sys2Proof.Tests
end

section
/-! PROOFS. What a step can change, seen from the machine's state (10_state.md): a step that changes a part of the state
completes an instruction, and the completed instruction says which part that may be. -/

namespace Sys2Proof.Machine

/-! ### From the cycle to the instruction that ran (30_encoding.md R80) -/

/-- A fetched word that decodes is the instruction the step runs. -/
theorem State.runs_of_fetch {s : State} {w : Word} {i : Instr} (hf : s.fault = none) (hw : s.wait = none)
    (hfetch : s.fetch = .ok w) (hd : decode w = .ok i) : s.Runs i := by
  rcases s.fetch_cases with ⟨hpc, h⟩ | ⟨_, h⟩ <;> rw [h] at hfetch <;> cases hfetch
  exact ⟨hf, hw, hpc, hd⟩

/-- Everything a step can have done when it answers a next state. -/
theorem step_next_cases {s t : State} (h : step s = .next t) :
    t = s ∨ (∃ w, t = s.keyWaitPoll w) ∨ (∃ e w, t = s.takeFatal e w) ∨ ∃ i, s.Runs i ∧ Completed i s t := by
  rcases step_cases s with ⟨_, _, hs⟩ | ⟨w, _, _, hs⟩ | ⟨_, _, _, hs⟩ | ⟨_, _, _, _, _, hs⟩ |
    ⟨w, i, hf, hw, hfetch, hd, hs⟩ <;> rw [hs] at h
  · cases h; exact .inl rfl
  · cases h; exact .inr (.inl ⟨w, rfl⟩)
  · cases h; exact .inr (.inr (.inl ⟨_, _, rfl⟩))
  · cases h; exact .inr (.inr (.inl ⟨_, _, rfl⟩))
  · rcases exec_next_cases h with ⟨e, ht, _⟩ | hc
    · exact .inr (.inr (.inl ⟨e, _, ht⟩))
    · exact .inr (.inr (.inr ⟨i, State.runs_of_fetch hf hw hfetch hd, hc⟩))

/-- A part of the state that neither the key-wait poll nor a fatal error writes changes only when an instruction
completes. -/
theorem completed_of_step_changes {α : Type} (part : State → α) {s t : State}
    (hpoll : ∀ w, part (s.keyWaitPoll w) = part s) (hfatal : ∀ e w, part (s.takeFatal e w) = part s)
    (h : step s = .next t) (hne : part t ≠ part s) : ∃ i, s.Runs i ∧ Completed i s t := by
  rcases step_next_cases h with rfl | ⟨w, rfl⟩ | ⟨e, w, rfl⟩ | hc
  · exact absurd rfl hne
  · exact absurd (hpoll w) hne
  · exact absurd (hfatal e w) hne
  · exact hc

/-! ### What the key-wait poll leaves unchanged (44_input.md R188) -/

@[simp] theorem State.keyWaitPoll_disp (s : State) (w : KeyWait) : (s.keyWaitPoll w).disp = s.disp := by
  rcases s.keyWaitPoll_cases w with ⟨_, h⟩ | ⟨_, _, h⟩ <;> simp [h]
@[simp] theorem State.keyWaitPoll_key (s : State) (w : KeyWait) : (s.keyWaitPoll w).key = s.key := by
  rcases s.keyWaitPoll_cases w with ⟨_, h⟩ | ⟨_, _, h⟩ <;> simp [h]
@[simp] theorem State.keyWaitPoll_dt (s : State) (w : KeyWait) : (s.keyWaitPoll w).dt = s.dt := by
  rcases s.keyWaitPoll_cases w with ⟨_, h⟩ | ⟨_, _, h⟩ <;> simp [h]
@[simp] theorem State.keyWaitPoll_st (s : State) (w : KeyWait) : (s.keyWaitPoll w).st = s.st := by
  rcases s.keyWaitPoll_cases w with ⟨_, h⟩ | ⟨_, _, h⟩ <;> simp [h]

/-! ### The writers of the display, the keys and the timers -/

/-- Only 00E0 and DXYN write the display (10_state.md R34). -/
theorem runs_draw_of_step_disp {s t : State} (h : step s = .next t) (hne : t.disp ≠ s.disp) :
    s.Runs .cls ∨ ∃ x y n, s.Runs (.drwVxVyN x y n) := by
  obtain ⟨i, hr, hc⟩ := completed_of_step_changes State.disp (by simp) (by simp) h hne
  rcases hc.disp hne with rfl | ⟨x, y, n, rfl⟩
  · exact .inl hr
  · exact .inr ⟨x, y, n, hr⟩

/-- No step writes the key states (R37). -/
theorem step_key {s t : State} (h : step s = .next t) : t.key = s.key := by
  by_contra hne
  obtain ⟨_, _, hc⟩ := completed_of_step_changes State.key (by simp) (by simp) h hne
  exact hne hc.key

/-- Only FX15 writes DT (R32). -/
theorem runs_ldDTVx_of_step_dt {s t : State} (h : step s = .next t) (hne : t.dt ≠ s.dt) :
    ∃ x, s.Runs (.ldDTVx x) ∧ t.dt = s.getV x := by
  obtain ⟨i, hr, hc⟩ := completed_of_step_changes State.dt (by simp) (by simp) h hne
  obtain ⟨x, rfl, hx⟩ := hc.dt hne
  exact ⟨x, hr, hx⟩

/-- Only FX18 writes ST (R33). -/
theorem runs_ldSTVx_of_step_st {s t : State} (h : step s = .next t) (hne : t.st ≠ s.st) :
    ∃ x, s.Runs (.ldSTVx x) ∧ t.st = s.getV x := by
  obtain ⟨i, hr, hc⟩ := completed_of_step_changes State.st (by simp) (by simp) h hne
  obtain ⟨x, rfl, hx⟩ := hc.st hne
  exact ⟨x, hr, hx⟩

/-- A timer's tick takes 1, not below 0 (45_timers.md R203). -/
theorem toNat_countDown (b : Byte) : (if b = 0 then b else b - 1).toNat = b.toNat - 1 := by
  split
  · subst b; rfl
  · bv_omega

end Sys2Proof.Machine
end

section
/-! PROOFS. Noninterference of the state that the host shares with the engine: the keys and the two timers (10_state.md R32,
R33, R37). `HostWrite` is an overwrite of one of them, `readBy` the instructions that read it; any other instruction run
after the overwrite does the same, but for what was overwritten. -/

namespace Sys2Proof.Machine

/-- An overwrite of a part of the state that the host sets or counts down. -/
inductive HostWrite where
  | keys (states : KeyStates)
  | delay (d : Byte)
  | sound (d : Byte)

/-- The state after the overwrite. -/
def HostWrite.on : HostWrite → State → State
  | .keys states, s => { s with key := states }
  | .delay d, s => { s with dt := d }
  | .sound d, s => { s with st := d }

/-- The instructions that read the overwritten part. -/
def HostWrite.readBy : HostWrite → Instr → Prop
  | .keys _, i => ∃ x, i = .skpVx x ∨ i = .sknpVx x ∨ i = .ldVxK x
  | .delay _, i => ∃ x, i = .ldVxDT x
  | .sound _, _ => False

/-- Does the key-wait poll read the overwritten part? -/
def HostWrite.readByPoll : HostWrite → Prop
  | .keys _ => True
  | .delay _ => False
  | .sound _ => False

variable (w : HostWrite) (s : State)

/-- The poll reads what EX9E, EXA1 and FX0A read. -/
theorem HostWrite.readBy_of_readByPoll {w : HostWrite} {i : Instr} (h : w.readByPoll)
    (hi : ∃ x, i = .skpVx x ∨ i = .sknpVx x ∨ i = .ldVxK x) : w.readBy i := by
  cases w with
  | keys _ => exact hi
  | delay _ | sound _ => exact h.elim

/-! ### What an overwrite leaves unchanged -/

@[simp] theorem HostWrite.on_on : w.on (w.on s) = w.on s := by cases w <;> rfl
@[simp] theorem HostWrite.on_cfg : (w.on s).cfg = s.cfg := by cases w <;> rfl
@[simp] theorem HostWrite.on_i : (w.on s).i = s.i := by cases w <;> rfl
@[simp] theorem HostWrite.on_pc : (w.on s).pc = s.pc := by cases w <;> rfl
@[simp] theorem HostWrite.on_wait : (w.on s).wait = s.wait := by cases w <;> rfl
@[simp] theorem HostWrite.on_fault : (w.on s).fault = s.fault := by cases w <;> rfl
@[simp] theorem HostWrite.on_getV (x : Reg) : (w.on s).getV x = s.getV x := by cases w <;> rfl
@[simp] theorem HostWrite.on_indexAddr : (w.on s).indexAddr = s.indexAddr := by cases w <;> rfl
@[simp] theorem HostWrite.on_regsUpTo (x : Reg) : (w.on s).regsUpTo x = s.regsUpTo x := by cases w <;> rfl
@[simp] theorem HostWrite.on_fontAddr (d : Fin 16) : (w.on s).fontAddr d = s.fontAddr d := by cases w <;> rfl
@[simp] theorem HostWrite.on_jumpOffset (nnn : Addr12) : (w.on s).jumpOffset nnn = s.jumpOffset nnn := by
  cases w <;> rfl
@[simp] theorem HostWrite.on_shiftSource (x y : Reg) : (w.on s).shiftSource x y = s.shiftSource x y := by
  cases w <;> rfl
@[simp] theorem HostWrite.on_nibbleOperand (x : Reg) : (w.on s).nibbleOperand x = s.nibbleOperand x := by
  cases w <;> rfl
@[simp] theorem HostWrite.on_memRead (a n : Nat) : (w.on s).memRead a n = s.memRead a n := by cases w <;> rfl
@[simp] theorem HostWrite.on_spriteRows (n : Nat) : (w.on s).spriteRows n = s.spriteRows n := by cases w <;> rfl
@[simp] theorem HostWrite.on_fetch : (w.on s).fetch = s.fetch := by cases w <;> rfl

/-- What the poll does not read are not the keys. -/
theorem HostWrite.on_key {w : HostWrite} (h : ¬ w.readByPoll) (s : State) : (w.on s).key = s.key := by
  cases w with
  | keys _ => exact absurd trivial h
  | delay _ | sound _ => rfl

/-- What FX07 does not read is not DT. -/
theorem HostWrite.on_dt {w : HostWrite} {x : Reg} (h : ¬ w.readBy (.ldVxDT x)) (s : State) : (w.on s).dt = s.dt := by
  cases w with
  | delay _ => exact absurd ⟨x, rfl⟩ h
  | keys _ | sound _ => rfl

/-- The next step runs the same instruction after the overwrite. -/
@[simp] theorem HostWrite.on_runs (i : Instr) : (w.on s).Runs i ↔ s.Runs i := by cases w <;> exact Iff.rfl

/-! ### An overwrite and an update of another part commute -/

@[simp] theorem HostWrite.on_setV (x : Reg) (b : Byte) : w.on (s.setV x b) = (w.on s).setV x b := by cases w <;> rfl
@[simp] theorem HostWrite.on_setFlag (c : Bool) : w.on (s.setFlag c) = (w.on s).setFlag c := by cases w <;> rfl
@[simp] theorem HostWrite.on_setI (a : Word) : w.on (s.setI a) = (w.on s).setI a := by cases w <;> rfl
@[simp] theorem HostWrite.on_setPC (a : Word) : w.on (s.setPC a) = (w.on s).setPC a := by cases w <;> rfl
@[simp] theorem HostWrite.on_advancePC : w.on s.advancePC = (w.on s).advancePC := by cases w <;> rfl
@[simp] theorem HostWrite.on_takeFatal (e : FatalError) (word : Option Word) :
    w.on (s.takeFatal e word) = (w.on s).takeFatal e word := by cases w <;> rfl
@[simp] theorem HostWrite.on_skipIf (c : Bool) : w.on (s.skipIf c) = (w.on s).skipIf c := by
  cases c <;> cases w <;> rfl
@[simp] theorem HostWrite.on_postIncrementI (x : Reg) : w.on (s.postIncrementI x) = (w.on s).postIncrementI x := by
  simp only [State.postIncrementI, HostWrite.on_cfg, HostWrite.on_i, apply_ite w.on, HostWrite.on_setI]

/-- The call stack does not look at the host's part: a push after the overwrite is the overwrite of the push. -/
theorem HostWrite.push_on (a : Word) : (w.on s).push a = (s.push a).map w.on := by
  have hsp : (w.on s).sp = s.sp := by cases w <;> rfl
  unfold State.push
  rw [hsp, apply_ite (Except.map w.on), apply_ite (Except.map w.on)]
  cases w <;> rfl

/-- A pop after the overwrite gives the same address. -/
theorem HostWrite.pop_on : (w.on s).pop = s.pop.map fun p => (p.1, w.on p.2) := by
  have hsp : (w.on s).sp = s.sp := by cases w <;> rfl
  unfold State.pop
  rw [hsp, apply_ite (Except.map _), apply_ite (Except.map _)]
  cases w <;> rfl

/-- A store after the overwrite stores the same bytes. -/
theorem HostWrite.memWrite_on (a : Nat) (bytes : List Byte) :
    (w.on s).memWrite a bytes = (s.memWrite a bytes).map w.on := by
  unfold State.memWrite
  rw [HostWrite.on_cfg]
  cases check a bytes.length with
  | error _ => rfl
  | ok _ =>
    cases checkReserved s.cfg a with
    | error _ => rfl
    | ok _ => cases w <;> rfl

/-! ### Instructions that do not read the overwritten part -/

/-- An effect that raises nothing, unchanged by the overwrite but for what it overwrites. -/
theorem HostWrite.complete_on {w : HostWrite} {s : State} {effect : State → State}
    (h : ∀ t, w.on (effect (w.on t)) = w.on (effect t)) :
    mapNext w.on (complete (w.on s) effect) = mapNext w.on (complete s effect) := by
  rw [complete_eq, complete_eq, ← HostWrite.on_advancePC]
  exact congrArg Host.Outcome.next (h s.advancePC)

/-- The same of an effect that can raise: it raises the same error, or completes in the same state. -/
theorem HostWrite.perform_on {w : HostWrite} {s : State} {i : Instr} {effect : State → Except Stop State}
    (h : ∀ t, (effect (w.on t)).map w.on = (effect t).map w.on) :
    mapNext w.on (perform i (w.on s) effect) = mapNext w.on (perform i s effect) := by
  have h := h s.advancePC
  rw [HostWrite.on_advancePC] at h
  rcases perform_cases i s effect with ⟨t, he, hp⟩ | ⟨e, he, hp⟩ | ⟨f, he, hp⟩ <;>
    rcases perform_cases i (w.on s) effect with ⟨t', he', hp'⟩ | ⟨e', he', hp'⟩ | ⟨f', he', hp'⟩ <;>
    rw [he, he'] at h <;> rw [hp, hp'] <;> simp_all [Except.map, mapNext]

/-! ### One lemma per instruction that can raise -/

theorem HostWrite.execRet_on : mapNext w.on (execRet (w.on s)) = mapNext w.on (execRet s) := by
  refine perform_on fun t => ?_
  rw [HostWrite.pop_on]
  cases t.pop <;> simp [Except.map]

theorem HostWrite.execCallNNN_on (nnn : Addr12) :
    mapNext w.on (execCallNNN nnn (w.on s)) = mapNext w.on (execCallNNN nnn s) := by
  refine perform_on fun t => ?_
  rw [HostWrite.push_on, HostWrite.on_pc]
  cases t.push t.pc <;> simp [Except.map]

theorem HostWrite.execDrwVxVyN_on (x y : Reg) (n : Nat) :
    mapNext w.on (execDrwVxVyN x y n (w.on s)) = mapNext w.on (execDrwVxVyN x y n s) := by
  refine perform_on fun t => ?_
  rw [HostWrite.on_spriteRows]
  cases t.spriteRows n with
  | error _ => rfl
  | ok rows => cases w <;> rfl

theorem HostWrite.execLdFVx_on (x : Reg) :
    mapNext w.on (execLdFVx x (w.on s)) = mapNext w.on (execLdFVx x s) := by
  refine perform_on fun t => ?_
  rw [HostWrite.on_nibbleOperand]
  cases t.nibbleOperand x <;> simp [Except.map]

theorem HostWrite.execLdBVx_on (x : Reg) :
    mapNext w.on (execLdBVx x (w.on s)) = mapNext w.on (execLdBVx x s) := by
  refine perform_on fun t => ?_
  rw [HostWrite.memWrite_on, HostWrite.on_indexAddr, HostWrite.on_getV]
  cases t.memWrite t.indexAddr (decimalDigits (t.getV x)) <;> simp [Except.map]

theorem HostWrite.execLdMemIVx_on (x : Reg) :
    mapNext w.on (execLdMemIVx x (w.on s)) = mapNext w.on (execLdMemIVx x s) := by
  refine perform_on fun t => ?_
  rw [HostWrite.memWrite_on, HostWrite.on_indexAddr, HostWrite.on_regsUpTo]
  cases t.memWrite t.indexAddr (t.regsUpTo x) <;> simp [Except.map]

theorem HostWrite.execLdVxMemI_on (x : Reg) :
    mapNext w.on (execLdVxMemI x (w.on s)) = mapNext w.on (execLdVxMemI x s) := by
  refine perform_on fun t => ?_
  rw [HostWrite.on_memRead, HostWrite.on_indexAddr]
  cases t.memRead t.indexAddr (x.val + 1) with
  | error _ => rfl
  | ok bytes =>
    have hv : w.on { w.on t with v := loadRegs (w.on t).v 0 bytes } = w.on { t with v := loadRegs t.v 0 bytes } := by
      cases w <;> rfl
    simp only [Except.map, HostWrite.on_postIncrementI, hv]

/-- EX9E and EXA1 skip by the key states, so an overwrite that leaves these unread leaves the skip. -/
theorem HostWrite.execSkpVx_on (x : Reg) (h : ∀ t k, (w.on t).isPressed k = t.isPressed k) :
    mapNext w.on (execSkpVx x (w.on s)) = mapNext w.on (execSkpVx x s) := by
  refine perform_on fun t => ?_
  rw [HostWrite.on_nibbleOperand]
  cases t.nibbleOperand x <;> simp [Except.map, h]

theorem HostWrite.execSknpVx_on (x : Reg) (h : ∀ t k, (w.on t).isPressed k = t.isPressed k) :
    mapNext w.on (execSknpVx x (w.on s)) = mapNext w.on (execSknpVx x s) := by
  refine perform_on fun t => ?_
  rw [HostWrite.on_nibbleOperand]
  cases t.nibbleOperand x <;> simp [Except.map, h]

/-! ### All instructions -/

/-- An instruction that does not read the overwritten part does the same, but for that part. -/
theorem HostWrite.exec_on {w : HostWrite} {i : Instr} (h : ¬ w.readBy i) (s : State) :
    mapNext w.on (exec i (w.on s)) = mapNext w.on (exec i s) := by
  cases i
  case ret => exact execRet_on w s
  case callNNN nnn => exact execCallNNN_on w s nnn
  case drwVxVyN x y n => exact execDrwVxVyN_on w s x y n
  case ldFVx x => exact execLdFVx_on w s x
  case ldBVx x => exact execLdBVx_on w s x
  case ldMemIVx x => exact execLdMemIVx_on w s x
  case ldVxMemI x => exact execLdVxMemI_on w s x
  case skpVx x =>
    have hkey := on_key (mt (readBy_of_readByPoll · ⟨x, .inl rfl⟩) h)
    exact execSkpVx_on w s x fun t k => by simp only [State.isPressed, hkey]
  case sknpVx x =>
    have hkey := on_key (mt (readBy_of_readByPoll · ⟨x, .inr (.inl rfl)⟩) h)
    exact execSknpVx_on w s x fun t k => by simp only [State.isPressed, hkey]
  all_goals unfold exec
  case ldVxK x =>
    have hkey := on_key (mt (readBy_of_readByPoll · ⟨x, .inr (.inr rfl)⟩) h)
    exact complete_on fun t => by rw [hkey]; cases w <;> rfl
  case ldVxDT => exact complete_on fun t => by simp [on_dt h]
  case cls | ldDTVx | ldSTVx | rndVxNN => exact complete_on fun t => by cases w <;> rfl
  all_goals exact complete_on fun t => by simp

/-! ### Every step -/

/-- The poll does the same after an overwrite that it does not read. -/
theorem HostWrite.keyWaitPoll_on {w : HostWrite} (h : ¬ w.readByPoll) (s : State) (p : KeyWait) :
    (w.on s).keyWaitPoll p = w.on (s.keyWaitPoll p) := by
  have hkey := on_key h s
  simp only [State.keyWaitPoll, hkey]
  cases newlyPressed s.key p.prev <;> cases w
  case none.keys | some.keys => exact absurd trivial h
  all_goals rfl

/-- The fetch and the decoding look at no overwritten part, so it is left to the instruction. -/
theorem HostWrite.runInstruction_on {w : HostWrite} {s : State}
    (h : ∀ word i, s.fetch = .ok word → decode word = .ok i → ¬ w.readBy i) :
    mapNext w.on (runInstruction (w.on s)) = mapNext w.on (runInstruction s) := by
  unfold runInstruction
  rw [on_fetch]
  cases hfetch : s.fetch with
  | error e => cases e <;> simp [mapNext]
  | ok word =>
    dsimp only
    cases hd : decode word with
    | error e => simp [mapNext]
    | ok i => exact exec_on (h word i hfetch hd) s

/-- A step whose instruction, or whose poll, does not read the overwritten part does the same, but for that part. -/
theorem HostWrite.step_on {w : HostWrite} {s : State} (hpoll : w.readByPoll → s.fault ≠ none ∨ s.wait = none)
    (hinstr : ∀ i, s.Runs i → ¬ w.readBy i) : mapNext w.on (step (w.on s)) = mapNext w.on (step s) := by
  unfold step cycle
  rw [on_fault, on_wait]
  cases hf : s.fault with
  | some r => exact congrArg Host.Outcome.next (on_on w s)
  | none =>
    cases hw : s.wait with
    | some p =>
      have hp : ¬ w.readByPoll := fun h => by simpa [hf, hw] using hpoll h
      exact congrArg Host.Outcome.next (by rw [keyWaitPoll_on hp, on_on])
    | none => exact runInstruction_on fun word i hfetch hd => hinstr i (State.runs_of_fetch hf hw hfetch hd)

/-- The same for two values of the part, with any third value in its place afterwards. -/
theorem HostWrite.step_on_hidden {v w : HostWrite} {s : State} (hvw : w.on (v.on s) = w.on s)
    (hpoll : w.readByPoll → s.fault ≠ none ∨ s.wait = none) (hinstr : ∀ i, s.Runs i → ¬ w.readBy i) :
    mapNext w.on (step (v.on s)) = mapNext w.on (step s) := by
  have hv := step_on (w := w) (s := v.on s) (by simpa using hpoll) (by simpa using hinstr)
  rw [hvw] at hv
  exact hv.symm.trans (step_on hpoll hinstr)

/-- No step writes the keys, so writing the keys that stood before the step changes nothing. -/
theorem HostWrite.mapNext_keys_step (states : KeyStates) (s : State) :
    mapNext (HostWrite.keys states).on (step ((HostWrite.keys states).on s)) = step ((HostWrite.keys states).on s) := by
  cases h : step ((HostWrite.keys states).on s) with
  | next t =>
    have hkey : t.key = states := step_key h
    subst hkey
    rfl
  | fault _ => rfl
  | refused _ => rfl

end Sys2Proof.Machine
end

section
/-! PROOFS. The fetch and the call stack through their instructions (10_state.md R26, R30, R31). -/

namespace Sys2Proof.Machine

/-! ### The call stack within its bounds -/

theorem State.push_of_full {s : State} (h : s.sp = 16) (a : Word) : s.push a = .error (.raise .stackOverflow) := by
  rw [State.push, if_pos h]

theorem State.push_of_room {s : State} (h : s.sp.toNat < 16) (a : Word) :
    s.push a = .ok { s with stack := s.stack.set s.sp.toNat a, sp := s.sp + 1 } := by
  rcases s.push_cases a with ⟨h1, _⟩ | ⟨h1, _⟩ | ⟨_, h2⟩
  · bv_omega
  · bv_omega
  · have hset : s.stack.setIfInBounds s.sp.toNat a = s.stack.set s.sp.toNat a := Vector.ext fun k hk => by
      rw [Vector.getElem_setIfInBounds, Vector.getElem_set]
    rw [h2, hset]

theorem State.pop_of_empty {s : State} (h : s.sp = 0) : s.pop = .error (.raise .stackUnderflow) := by
  rw [State.pop, if_pos h]

theorem State.pop_of_entry {s : State} (h0 : 0 < s.sp.toNat) (h16 : s.sp.toNat ≤ 16) :
    s.pop = .ok (s.stack[s.sp.toNat - 1], { s with sp := s.sp - 1 }) := by
  have htop : (s.sp - 1).toNat = s.sp.toNat - 1 := by bv_omega
  rcases s.pop_cases with ⟨h1, _⟩ | ⟨h1, _⟩ | ⟨_, _, h2⟩
  · bv_omega
  · bv_omega
  · rw [h2, htop, List.getD_eq_getElem _ _ (by simp; omega), Vector.getElem_toList]

/-! ### CALL and RET as whole next states (40_control_flow.md R101, R103) -/

theorem exec_callNNN_of_full (nnn : Addr12) {s : State} (h : s.sp = 16) :
    exec (.callNNN nnn) s = .next (s.takeFatal .stackOverflow (some (encode (.callNNN nnn)))) := by
  show execCallNNN nnn s = _
  refine perform_raise ?_
  rw [State.push_of_full (s := s.advancePC) h]

theorem exec_callNNN_of_room (nnn : Addr12) {s : State} (h : s.sp.toNat < 16) :
    exec (.callNNN nnn) s = .next { s with
      stack := s.stack.set s.sp.toNat (s.pc + 2), sp := s.sp + 1, pc := zext16 nnn } := by
  show execCallNNN nnn s = _
  refine perform_ok ?_
  rw [State.push_of_room (s := s.advancePC) h]
  rfl

theorem exec_ret_of_empty {s : State} (h : s.sp = 0) :
    exec .ret s = .next (s.takeFatal .stackUnderflow (some (encode .ret))) := by
  show execRet s = _
  refine perform_raise ?_
  rw [State.pop_of_empty (s := s.advancePC) h]

theorem exec_ret_of_entry {s : State} (h0 : 0 < s.sp.toNat) (h16 : s.sp.toNat ≤ 16) :
    exec .ret s = .next { s with sp := s.sp - 1, pc := s.stack[s.sp.toNat - 1] } := by
  show execRet s = _
  refine perform_ok ?_
  rw [State.pop_of_entry (s := s.advancePC) h0 h16]
  rfl

end Sys2Proof.Machine
end

section
/-! PROOFS. The obligations of the state, each from the lemmas above. -/

namespace Sys2Proof.Machine

/-- Settles O41: a step that changes a pixel changes the display, whose writers are 00E0 and DXYN. -/
theorem onlyDrawInstructionsChangeTheDisplay : Obligations.OnlyDrawInstructionsChangeTheDisplay := by
  intro s t px py h hne
  exact runs_draw_of_step_disp h fun hdisp => hne (by rw [hdisp])

/-- Settles O46, by the frame of a step and by noninterference of the keys. -/
theorem keysAreTheHostsAndReadByThree : Obligations.KeysAreTheHostsAndReadByThree := by
  intro s keys
  constructor
  · intro e t h hne
    cases e with
    | step => exact absurd (step_key h) hne
    | tick => cases h; exact absurd rfl hne
    | setKey k p => cases h; exact .inl ⟨k, p, rfl, rfl⟩
    | snapshot => cases h; exact absurd rfl hne
    | load bytes => exact .inr ⟨bytes, rfl⟩
  · intro hpoll hinstr
    have hread : ∀ i, s.Runs i → ¬ (HostWrite.keys keys).readBy i := by
      rintro i hr ⟨x, rfl | rfl | rfl⟩
      · exact (hinstr x).1 hr
      · exact (hinstr x).2.1 hr
      · exact (hinstr x).2.2 hr
    exact (HostWrite.mapNext_keys_step keys s).symm.trans (HostWrite.step_on (fun _ => hpoll) hread)

/-- Settles O48, by the frame of a step and by noninterference of DT. -/
theorem delayTimerHasOneWriterOneReader : Obligations.DelayTimerHasOneWriterOneReader := by
  intro s d
  refine ⟨fun t h hne => runs_ldDTVx_of_step_dt h hne, fun x => rfl, fun hinstr => ?_, toNat_countDown s.dt⟩
  have hread : ∀ i, s.Runs i → ¬ (HostWrite.delay 0).readBy i := by
    rintro i hr ⟨x, rfl⟩
    exact hinstr x hr
  exact HostWrite.step_on_hidden (v := .delay d) (w := .delay 0) rfl (fun h => h.elim) hread

/-- Settles O49, by the frame of a step and by noninterference of ST, which no instruction reads. -/
theorem soundTimerIsReadOnlyByTheHost : Obligations.SoundTimerIsReadOnlyByTheHost := by
  intro s d
  refine ⟨fun t h hne => runs_ldSTVx_of_step_st h hne, ?_, toNat_countDown s.st, bne_iff_ne⟩
  exact HostWrite.step_on_hidden (v := .sound d) (w := .sound 0) rfl (fun h => h.elim) fun _ _ h => h

/-- Settles O8: with room for two bytes the fetch passes its check. -/
theorem fetchNeedsNoAlignment : Obligations.FetchNeedsNoAlignment := by
  intro s hpc
  rcases s.fetch_cases with ⟨_, h⟩ | ⟨hout, _⟩
  · exact h
  · omega

/-- Settles O17, by what a CALL does at a full stack and at one with room. -/
theorem callPushesOrOverflows : Obligations.CallPushesOrOverflows := by
  intro nnn s
  refine ⟨fun hfull => ⟨_, exec_callNNN_of_full nnn hfull, rfl, rfl⟩, fun hroom => ?_⟩
  rw [exec_callNNN_of_room nnn hroom, BitVec.ofNat_toNat]

/-- Settles O18, by what a RET does at an empty stack and at one with an entry. -/
theorem returnPopsOrUnderflows : Obligations.ReturnPopsOrUnderflows := fun _ =>
  ⟨fun hempty => ⟨_, exec_ret_of_empty hempty, rfl, rfl⟩, fun h0 h16 => exec_ret_of_entry h0 h16⟩

end Sys2Proof.Machine
end

section
/-! PROOFS. A step that raises (60_exceptions.md R211): the one way to a newly latched error is `State.takeFatal` of the state
before the step. -/

namespace Sys2Proof.Machine

@[simp] theorem State.keyWaitPoll_fault (s : State) (w : KeyWait) : (s.keyWaitPoll w).fault = s.fault := by
  rcases s.keyWaitPoll_cases w with ⟨_, h⟩ | ⟨_, _, h⟩ <;> simp [h]

/-- A step that latches an error has taken it: neither the key-wait poll nor a completed instruction writes the latch. -/
theorem takeFatal_of_step_fault {s t : State} (h : step s = .next t) (hne : t.fault ≠ s.fault) :
    ∃ e w, t = s.takeFatal e w := by
  rcases step_next_cases h with rfl | ⟨w, rfl⟩ | hfatal | ⟨i, _, hc⟩
  · exact absurd rfl hne
  · exact absurd (s.keyWaitPoll_fault w) hne
  · exact hfatal
  · exact absurd hc.fault hne

/-- Taking an error writes the latch and nothing else, so the latched record determines the state after. -/
theorem State.takeFatal_eq_of_fault {s : State} {e : FatalError} {w : Option Word} {r : FatalRecord}
    (h : (s.takeFatal e w).fault = some r) : s.takeFatal e w = { s with fault := some r } :=
  congrArg (fun f => { s with fault := f }) h

/-- A step that ends with an error latched answers Fatal of its record (30_encoding.md R80). -/
theorem State.stepResult_of_fault {s : State} {r : FatalRecord} (h : s.fault = some r) : s.stepResult = .fatal r := by
  rw [State.stepResult, h]

/-- Settles O10: the step took the error, and that writes the latch alone. -/
theorem raisingKeepsNoWrite : Obligations.RaisingKeepsNoWrite := by
  intro s t r hs hstep ht
  have hne : t.fault ≠ s.fault := by simp [hs, ht]
  obtain ⟨e, w, rfl⟩ := takeFatal_of_step_fault hstep hne
  exact ⟨State.takeFatal_eq_of_fault ht, State.stepResult_of_fault ht⟩

end Sys2Proof.Machine
end

section
/-! PROOFS. The decoder and the encoder invert each other, and both follow the opcode map (30_encoding.md R71 to
R75). -/

namespace Sys2Proof

/-! ### The round trip -/

theorem decode_encode {i : Instr} (h : i.wellFormed = true) : decode (encode i) = .ok i := by
  cases i
  case cls | ret => rfl
  case drwVxVyN x y n =>
    have hn : n ≤ 15 := by simpa [Instr.wellFormed] using h
    have hmod : n % 16 = n := by omega
    simp [encode, decode, hmod]
  all_goals simp [encode, decode]

/-! A word with the fields that an encoding fixes is that encoding of its other fields. -/

theorem encodeNNN_of_op {w : Word} {op : BitVec 4} (h : fieldOp w = op) : encodeNNN op (fieldNNN w) = w :=
  h ▸ encodeNNN_fields w

theorem encodeXNN_of_op {w : Word} {op : BitVec 4} (h : fieldOp w = op) :
    encodeXNN op (fieldX w) (fieldNN w) = w := h ▸ encodeXNN_fields w

theorem encodeXNN_of_op_nn {w : Word} {op : BitVec 4} {nn : Byte} (h : fieldOp w = op) (hnn : fieldNN w = nn) :
    encodeXNN op (fieldX w) nn = w := hnn ▸ encodeXNN_of_op h

theorem encodeXYN_of_op {w : Word} {op : BitVec 4} (h : fieldOp w = op) :
    encodeXYN op (fieldX w) (fieldY w) (fieldN w) = w := h ▸ encodeXYN_fields w

theorem encodeXYN_of_op_n {w : Word} {op n : BitVec 4} (h : fieldOp w = op) (hn : fieldN w = n) :
    encodeXYN op (fieldX w) (fieldY w) n = w := hn ▸ encodeXYN_of_op h

/-- Each branch of `decode` has fixed the fields that the encoding of its instruction fixes. -/
theorem wellFormed_and_encode_of_decode {w : Word} {i : Instr} (h : decode w = .ok i) :
    i.wellFormed = true ∧ encode i = w := by
  unfold decode at h
  split at h
  case h_1 => split at h <;> [skip; split at h] <;> cases h <;> simp_all [Instr.wellFormed, encode]
  case h_14 =>
    cases h
    refine ⟨?_, ?_⟩
    · simp only [Instr.wellFormed]; exact decide_eq_true (by omega)
    · simp [encode, encodeXYN_of_op, *]
  case h_6 | h_10 => split at h <;> cases h; simp [Instr.wellFormed, encode, encodeXYN_of_op_n, *]
  case h_9 => split at h <;> cases h <;> simp [Instr.wellFormed, encode, encodeXYN_of_op_n, *]
  case h_15 | h_16 => split at h <;> cases h <;> simp [Instr.wellFormed, encode, encodeXNN_of_op_nn, *]
  all_goals cases h
  case h_2 | h_3 | h_11 | h_12 => simp [Instr.wellFormed, encode, encodeNNN_of_op, *]
  all_goals simp [Instr.wellFormed, encode, encodeXNN_of_op, *]

theorem decode_of_encode_eq {i : Instr} {w : Word} (hi : i.wellFormed = true) (h : encode i = w) :
    decode w = .ok i := h ▸ decode_encode hi

/-! ### The opcode map -/

section OpcodeMap
open Laws.EncodesItsRow

/-- Every instruction's own row accepts its word. -/
theorem encodesItsRow (i : Instr) : Statement i := by
  cases i
  case cls => exact cls
  case ret => exact ret
  case jpNNN | callNNN | ldINNN | jpV0NNN => exact of_eq rfl (nnn_op ..)
  case seVxNN | sneVxNN | ldVxNN | addVxNN | rndVxNN => exact of_eq rfl (xnn_op ..)
  case drwVxVyN x y n => exact drwVxVyN x y n
  case skpVx | sknpVx | ldVxDT | ldVxK | ldDTVx | ldSTVx | addIVx | ldFVx | ldBVx | ldMemIVx | ldVxMemI =>
    exact of_eq rfl (xnn_fn8 ..)
  all_goals exact of_eq rfl (xyn_fn ..)

variable {w : Word} {op n : BitVec 4} {nn : Byte}

/-- A mask of the high nibble accepts the words of one high nibble. -/
theorem fieldOp_of_mask (h : w &&& 0xF000#16 = encodeNNN op 0) : fieldOp w = op := by
  have hw := nnn_op (fieldOp w) (fieldNNN w)
  rw [encodeNNN_fields, h] at hw
  simpa using (congrArg fieldOp hw).symm

theorem encodeNNN_of_mask (h : w &&& 0xF000#16 = encodeNNN op 0) : encodeNNN op (fieldNNN w) = w :=
  encodeNNN_of_op (fieldOp_of_mask h)

theorem encodeXNN_of_mask (h : w &&& 0xF000#16 = encodeNNN op 0) : encodeXNN op (fieldX w) (fieldNN w) = w :=
  encodeXNN_of_op (fieldOp_of_mask h)

/-- A mask of the high nibble and the low byte leaves the register X open. -/
theorem encodeXNN_of_mask_nn (h : w &&& 0xF0FF#16 = encodeXNN op 0 nn) : encodeXNN op (fieldX w) nn = w := by
  have hw := xnn_fn8 (fieldOp w) (fieldX w) (fieldNN w)
  rw [encodeXNN_fields, h] at hw
  exact encodeXNN_of_op_nn (by simpa using (congrArg fieldOp hw).symm) (by simpa using (congrArg fieldNN hw).symm)

/-- A mask of the high and the low nibble leaves the registers X and Y open. -/
theorem encodeXYN_of_mask_n (h : w &&& 0xF00F#16 = encodeXYN op 0 0 n) :
    encodeXYN op (fieldX w) (fieldY w) n = w := by
  have hw := xyn_fn (fieldOp w) (fieldX w) (fieldY w) (fieldN w)
  rw [encodeXYN_fields, h] at hw
  exact encodeXYN_of_op_n (by simpa using (congrArg fieldOp hw).symm) (by simpa using (congrArg fieldN hw).symm)

/-- A word that a row accepts is the encoding of an instruction of that row, made of the word's fields. -/
theorem encodes_of_accepts {k : Nat} {r : OpcodeRow} (hr : opcodeRows[k]? = some r) (h : r.accepts w = true) :
    ∃ i : Instr, i.wellFormed = true ∧ encode i = w ∧ i.rowIndex = k := by
  have hk : k < 34 := (List.getElem?_eq_some_iff.1 hr).1
  have hm : w &&& r.mask = r.value := by simpa [OpcodeRow.accepts] using h
  clear h
  interval_cases k <;> cases hr
  · exact ⟨.cls, rfl, hm.symm.trans BitVec.and_allOnes, rfl⟩
  · exact ⟨.ret, rfl, hm.symm.trans BitVec.and_allOnes, rfl⟩
  · exact ⟨.jpNNN _, rfl, encodeNNN_of_mask hm, rfl⟩
  · exact ⟨.callNNN _, rfl, encodeNNN_of_mask hm, rfl⟩
  · exact ⟨.seVxNN _ _, rfl, encodeXNN_of_mask hm, rfl⟩
  · exact ⟨.sneVxNN _ _, rfl, encodeXNN_of_mask hm, rfl⟩
  · exact ⟨.seVxVy _ _, rfl, encodeXYN_of_mask_n hm, rfl⟩
  · exact ⟨.ldVxNN _ _, rfl, encodeXNN_of_mask hm, rfl⟩
  · exact ⟨.addVxNN _ _, rfl, encodeXNN_of_mask hm, rfl⟩
  · exact ⟨.ldVxVy _ _, rfl, encodeXYN_of_mask_n hm, rfl⟩
  · exact ⟨.orVxVy _ _, rfl, encodeXYN_of_mask_n hm, rfl⟩
  · exact ⟨.andVxVy _ _, rfl, encodeXYN_of_mask_n hm, rfl⟩
  · exact ⟨.xorVxVy _ _, rfl, encodeXYN_of_mask_n hm, rfl⟩
  · exact ⟨.addVxVy _ _, rfl, encodeXYN_of_mask_n hm, rfl⟩
  · exact ⟨.subVxVy _ _, rfl, encodeXYN_of_mask_n hm, rfl⟩
  · exact ⟨.shrVxVy _ _, rfl, encodeXYN_of_mask_n hm, rfl⟩
  · exact ⟨.subnVxVy _ _, rfl, encodeXYN_of_mask_n hm, rfl⟩
  · exact ⟨.shlVxVy _ _, rfl, encodeXYN_of_mask_n hm, rfl⟩
  · exact ⟨.sneVxVy _ _, rfl, encodeXYN_of_mask_n hm, rfl⟩
  · exact ⟨.ldINNN _, rfl, encodeNNN_of_mask hm, rfl⟩
  · exact ⟨.jpV0NNN _, rfl, encodeNNN_of_mask hm, rfl⟩
  · exact ⟨.rndVxNN _ _, rfl, encodeXNN_of_mask hm, rfl⟩
  · refine ⟨.drwVxVyN (fieldX w) (fieldY w) (fieldN w).toNat, decide_eq_true (by omega), ?_, rfl⟩
    rw [encode, BitVec.ofNat_toNat, BitVec.setWidth_eq]
    exact encodeXYN_of_op (fieldOp_of_mask hm)
  · exact ⟨.skpVx _, rfl, encodeXNN_of_mask_nn hm, rfl⟩
  · exact ⟨.sknpVx _, rfl, encodeXNN_of_mask_nn hm, rfl⟩
  · exact ⟨.ldVxDT _, rfl, encodeXNN_of_mask_nn hm, rfl⟩
  · exact ⟨.ldVxK _, rfl, encodeXNN_of_mask_nn hm, rfl⟩
  · exact ⟨.ldDTVx _, rfl, encodeXNN_of_mask_nn hm, rfl⟩
  · exact ⟨.ldSTVx _, rfl, encodeXNN_of_mask_nn hm, rfl⟩
  · exact ⟨.addIVx _, rfl, encodeXNN_of_mask_nn hm, rfl⟩
  · exact ⟨.ldFVx _, rfl, encodeXNN_of_mask_nn hm, rfl⟩
  · exact ⟨.ldBVx _, rfl, encodeXNN_of_mask_nn hm, rfl⟩
  · exact ⟨.ldMemIVx _, rfl, encodeXNN_of_mask_nn hm, rfl⟩
  · exact ⟨.ldVxMemI _, rfl, encodeXNN_of_mask_nn hm, rfl⟩

end OpcodeMap

/-! ### The illegal words (R75) -/

theorem toNat_fieldOp (w : Word) : (fieldOp w).toNat = w.toNat / 0x1000 := by
  simp [fieldOp, Nat.shiftRight_eq_div_pow]
  omega

theorem toNat_fieldN (w : Word) : (fieldN w).toNat = w.toNat % 0x10 := by simp [fieldN]

theorem toNat_fieldNN (w : Word) : (fieldNN w).toNat = w.toNat % 0x100 := by simp [fieldNN]

/-- The fields of the illegal words: the branches of `decode` that refuse. -/
theorem decode_eq_error_iff (w : Word) : decode w = .error (.unknownOpcode w) ↔
    (fieldOp w = 0 ∧ w ≠ 0x00E0 ∧ w ≠ 0x00EE) ∨
    ((fieldOp w = 5 ∨ fieldOp w = 9) ∧ fieldN w ≠ 0) ∨
    (fieldOp w = 8 ∧ fieldN w ∉ ([0, 1, 2, 3, 4, 5, 6, 7, 0xE] : List (BitVec 4))) ∨
    (fieldOp w = 0xE ∧ fieldNN w ∉ ([0x9E, 0xA1] : List Byte)) ∨
    (fieldOp w = 0xF ∧ fieldNN w ∉ ([0x07, 0x0A, 0x15, 0x18, 0x1E, 0x29, 0x33, 0x55, 0x65] : List Byte)) := by
  unfold decode
  split
  case h_1 _ hop => simp only [hop]; split <;> [skip; split] <;> simp [*]
  case h_6 | h_10 => split <;> simp [*]
  case h_9 | h_15 | h_16 => split <;> simp_all
  case h_17 =>
    have hall : ∀ b : BitVec 4, b ∈ List.ofFn (BitVec.ofFin (w := 4)) := by decide
    have hnone := hall (fieldOp w)
    simp_all
  all_goals simp [*]

/-- The low nibbles of the nine rows `8XY_`, and the other seven. -/
theorem not_mem_logicNibbles_iff (b : BitVec 4) :
    b ∉ ([0, 1, 2, 3, 4, 5, 6, 7, 0xE] : List (BitVec 4)) ↔ b.toNat ∈ [0x8, 0x9, 0xA, 0xB, 0xC, 0xD, 0xF] := by
  revert b; decide

/-! ### The obligations of the encoding -/

/-- Settles O1, instruction by instruction. -/
theorem decodeOfEncodeIsTheInstruction : Obligations.DecodeOfEncodeIsTheInstruction := fun _ hi => decode_encode hi

/-- Settles O2, along the branches of `decode`. -/
theorem encodeOfDecodeIsTheWord : Obligations.EncodeOfDecodeIsTheWord := fun _ _ h => wellFormed_and_encode_of_decode h

/-- Settles O3: a word that a row accepts is the encoding of an instruction of that row, and the other way round. -/
theorem decodeFollowsTheOpcodeMap : Obligations.DecodeFollowsTheOpcodeMap := by
  intro w k r hr
  constructor
  · intro h
    obtain ⟨i, hi, hw, hk⟩ := encodes_of_accepts hr h
    exact ⟨i, decode_of_encode_eq hi hw, hk⟩
  · rintro ⟨i, hd, rfl⟩
    obtain ⟨r', hr', h⟩ := encodesItsRow i
    cases hr.symm.trans hr'
    rwa [(wellFormed_and_encode_of_decode hd).2] at h

/-- Settles O4, by the fields of an illegal word. -/
theorem illegalWordsAreExactlyTheListedOnes : Obligations.IllegalWordsAreExactlyTheListedOnes := by
  intro w
  rw [decode_eq_error_iff, not_mem_logicNibbles_iff, ← toNat_fieldOp, ← toNat_fieldN, ← toNat_fieldNN]
  simp [BitVec.toNat_eq]

/-- Settles O5: the six words, evaluated. -/
theorem wordsOfEachFamilyDecode : Obligations.WordsOfEachFamilyDecode := by
  unfold Obligations.WordsOfEachFamilyDecode
  decide

/-- Settles O6: the two bytes of a word make the word, and its instruction is the one it encodes. -/
theorem bytesOfAnInstructionDecode : Obligations.BytesOfAnInstructionDecode := by
  intro i rest hi
  have hbytes (bs : List Byte) : decodeBytes (highByte (encode i) :: lowByte (encode i) :: bs) = .ok (i, bs) := by
    rw [decodeBytes, wordOfBytes_bytes, decode_encode hi]
  refine ⟨hbytes rest, ?_⟩
  rw [decodeTableWord, Nat.mod_eq_of_lt (encode i).isLt, BitVec.ofNat_toNat, BitVec.setWidth_eq]
  simp only [hbytes]

end Sys2Proof
end

section
/-! PROOFS. Frames over all instructions (20_memory.md R58, 10_state.md R21 to R38) and the errors that an instruction
takes (60_exceptions.md R210), read off `exec_next_cases`; and the cycle that runs it (30_encoding.md R80). -/

namespace Sys2Proof.Machine

/-- The byte at an address after an instruction that completes is a byte it stored, or the byte before. -/
theorem Completed.byteAt_outside {i : Instr} {s t : State} (h : Completed i s t) (hs : s.MemoryCanonical) {a : Nat}
    (ha : a < s.indexAddr ∨ s.indexAddr + i.storeLength ≤ a) : t.byteAt a = s.byteAt a := by
  rcases h.mem with hm | ⟨bs, hlen, hb, hm⟩
  · exact State.byteAt_congr hm h.cfg a
  · rw [hlen, State.indexAddr] at ha
    calc t.byteAt a = State.byteAt { s with mem := s.mem.writeBytes s.cfg.fontBase s.i.toNat bs } a :=
          State.byteAt_congr hm (by exact h.cfg) a
      _ = s.byteAt a := by rw [s.byteAt_writeBytes hs _ _ hb, if_neg (by omega)]

/-- Settles O54: an error writes no register, and an instruction that completes only those it may write. -/
theorem registersOutsideTheDestinationsStay : Obligations.RegistersOutsideTheDestinationsStay := by
  intro i s t r h hr
  rcases exec_next_cases h with ⟨e, rfl, _⟩ | hc
  · rfl
  · exact hc.regs r hr

/-- Settles O55: an error writes no byte, and an instruction that completes only those it stores. -/
theorem bytesOutsideTheStoreStay : Obligations.BytesOutsideTheStoreStay := by
  intro i s t hs h a ha
  rcases exec_next_cases h with ⟨e, rfl, _⟩ | hc
  · rfl
  · exact hc.byteAt_outside hs ha

/-- Settles O56: taking an error writes none of these parts. -/
theorem specialStateHasItsWriters : Obligations.SpecialStateHasItsWriters := by
  intro i s t h
  rcases exec_next_cases h with ⟨e, rfl, _⟩ | hc
  · simp
  refine ⟨hc.cfg, hc.index, fun hne => ?_, hc.drawFlag, fun hne => ?_, hc.drawCount⟩
  · rcases hc.stack with ⟨hsp, hst⟩ | ⟨nnn, hi, _⟩ | ⟨hi, _⟩
    · simp [hsp, hst] at hne
    · exact .inr ⟨nnn, hi⟩
    · exact .inl hi
  · rcases hc.wait with hw | ⟨x, hi, _⟩
    · exact absurd hw hne
    · exact ⟨x, hi⟩

/-- The record that an instruction latches where none was: an error it raises, its address and its word. -/
theorem record_of_exec_fault {i : Instr} {s t : State} {r : FatalRecord} (hs : s.fault = none)
    (h : exec i s = .next t) (ht : t.fault = some r) :
    r = { error := r.error, pc := s.pc, word := some (encode i) } ∧ RaisedBy i s r.error := by
  rcases exec_next_cases h with ⟨e, rfl, he⟩ | hc
  · cases ht; exact ⟨rfl, he⟩
  · simp [hc.fault, hs] at ht

/-- Settles O11: an instruction takes only the errors it raises. -/
theorem errorsComeFromTheirInstructions : Obligations.ErrorsComeFromTheirInstructions := by
  intro i s t r hs h ht
  exact (record_of_exec_fault hs h ht).2

/-! ### The cycle (30_encoding.md R80) -/

theorem step_of_fault {s : State} {r : FatalRecord} (h : s.fault = some r) : step s = .next s := by
  simp only [step, cycle, h]

theorem step_of_wait {s : State} {w : KeyWait} (hf : s.fault = none) (hw : s.wait = some w) :
    step s = .next (s.keyWaitPoll w) := by
  simp only [step, cycle, hf, hw]

theorem step_of_fetch {s : State} {w : Word} {i : Instr} (hf : s.fault = none) (hw : s.wait = none)
    (hfetch : s.fetch = .ok w) (hd : decode w = .ok i) : step s = exec i s := by
  simp only [step, cycle, hf, hw, runInstruction, hfetch, hd]

theorem State.fetch_of_room {s : State} (h : s.pc.toNat ≤ 0xFFE) : s.fetch = .ok s.wordAtPC := by
  rcases s.fetch_cases with ⟨_, hfetch⟩ | ⟨hpc, _⟩
  · exact hfetch
  · omega

theorem State.fetch_eq_ok_iff (s : State) (w : Word) : s.fetch = .ok w ↔ s.pc.toNat ≤ 0xFFE ∧ w = s.wordAtPC := by
  rcases s.fetch_cases with ⟨hpc, hfetch⟩ | ⟨hpc, hfetch⟩
  · rw [hfetch]; exact ⟨fun h => ⟨hpc, (Except.ok.inj h).symm⟩, fun h => congrArg _ h.2.symm⟩
  · rw [hfetch]; exact ⟨fun h => (nomatch h), fun h => by omega⟩

theorem step_of_runs {s : State} {i : Instr} (h : s.Runs i) : step s = exec i s := by
  obtain ⟨hf, hw, hpc, hd⟩ := h
  exact step_of_fetch hf hw (State.fetch_of_room hpc) hd

/-- A step that leads back to its state leads there any number of times. -/
theorem run_of_step_eq {M : Host.Core} {s : M.State} (h : M.step s = .next s) (n : Nat) : M.run n s = .next s := by
  induction n with
  | zero => rfl
  | succ n ih => rw [Host.Core.run, h]; exact ih

/-- Settles O7: the bytes at PC are the word fetched. -/
theorem stepRunsTheDecodedInstruction : Obligations.StepRunsTheDecodedInstruction :=
  fun _ _ hf hw hpc hd => step_of_runs ⟨hf, hw, hpc, hd⟩

/-- Settles O9, along everything a step can do. -/
theorem fetchAndDecodeErrorsAreFatal : Obligations.FetchAndDecodeErrorsAreFatal := by
  intro s hf hw
  rcases step_cases s with ⟨_, h, _⟩ | ⟨_, _, h, _⟩ | ⟨_, _, hpc, hs⟩ | ⟨w, _, _, hfetch, hd, hs⟩ |
    ⟨w, i, _, _, hfetch, hd, hs⟩
  · simp [hf] at h
  · simp [hw] at h
  · have haddr : max s.pc.toNat 0x1000 = if s.pc.toNat = 0xFFF then 0x1000 else s.pc.toNat := by split <;> omega
    have hfetch : s.fetch = .error (.raise (.outOfBounds (max s.pc.toNat 0x1000))) := by
      rcases s.fetch_cases with ⟨h, _⟩ | ⟨_, h⟩
      · omega
      · exact h
    refine ⟨fun _ => by rw [hs, haddr]; rfl, fun w h => by simp [hfetch] at h, fun t r ht hr => ?_⟩
    rw [hs] at ht
    cases ht; cases hr
    exact ⟨rfl, .inl ⟨rfl, hfetch⟩⟩
  · have hpc := ((s.fetch_eq_ok_iff w).1 hfetch).1
    refine ⟨fun h => by omega, fun w' hw' _ => ?_, fun t r ht hr => ?_⟩
    · cases hfetch.symm.trans hw'; exact hs
    · rw [hs] at ht
      cases ht; cases hr
      exact ⟨rfl, .inr ⟨w, hfetch, rfl⟩⟩
  · have hpc := ((s.fetch_eq_ok_iff w).1 hfetch).1
    refine ⟨fun h => by omega, fun w' hw' hno => ?_, fun t r ht hr => ?_⟩
    · cases hfetch.symm.trans hw'; exact absurd hd (hno i)
    · obtain ⟨hrec, _⟩ := record_of_exec_fault hf (hs.symm.trans ht) hr
      rw [hrec]
      exact ⟨rfl, .inr ⟨w, hfetch, congrArg some (wellFormed_and_encode_of_decode hd).2⟩⟩

/-- Settles O12: every move but a load keeps the latch, and a load that is too long keeps the state. -/
theorem latchedErrorStaysUntilLoad : Obligations.LatchedErrorStaysUntilLoad := by
  intro s r hr
  refine ⟨step_of_fault hr, State.stepResult_of_fault hr, fun e t h hne => ?_⟩
  cases e with
  | step => rw [State.onEvent, step_of_fault hr] at h; cases h; exact absurd hr hne
  | tick | setKey | snapshot => cases h; exact absurd hr hne
  | load bytes =>
    cases h
    rcases s.load_cases bytes with ⟨_, hload⟩ | ⟨hlen, hload⟩ <;> rw [hload] at hne ⊢
    · exact absurd hr hne
    · exact ⟨rfl, bytes, rfl, hlen⟩

/-- Settles O13: a step of a run that is over leads back to its state. -/
theorem finishedRunStaysFinished : Obligations.FinishedRunStaysFinished := by
  rintro s (hf | ⟨nnn, hruns, hpc⟩) n
  · obtain ⟨r, hr⟩ := Option.ne_none_iff_exists'.1 hf
    exact run_of_step_eq (M := core) (step_of_fault hr) n
  · refine run_of_step_eq (M := core) ((step_of_runs hruns).trans ?_) n
    exact congrArg (fun a => Host.Outcome.next { s with pc := a }) hpc

end Sys2Proof.Machine
end

section
/-! PROOFS. The invariants of `State.Inv` are kept by every step and every move of the host, and every move completes. -/

namespace Sys2Proof.Machine

/-! ### What the invariants say when nothing is latched or pending -/

theorem State.waitAtKeyWord_of_none {s : State} (h : s.wait = none) : s.waitAtKeyWord = true := by
  rw [State.waitAtKeyWord, h]

theorem State.waitAtKeyWord_of_some {s : State} {w : KeyWait} (h : s.wait = some w) :
    s.waitAtKeyWord = true ↔ s.pc.toNat ≤ 0xFFE ∧ s.wordAtPC = encode (.ldVxK w.x) := by
  simp [State.waitAtKeyWord, h]

theorem State.recordPrecise_of_none {s : State} (h : s.fault = none) : s.recordPrecise = true := by
  rw [State.recordPrecise, h]

/-- Only memory, the configuration and PC matter to the word at PC. -/
theorem State.wordAtPC_congr {s t : State} (hm : t.mem = s.mem) (hc : t.cfg = s.cfg) (hpc : t.pc = s.pc) :
    t.wordAtPC = s.wordAtPC := by
  simp only [State.wordAtPC, State.byteAt, hm, hc, hpc]

/-- The invariants do not look at the registers, I, the timers, the display, the keys and the draw counter. -/
theorem State.Inv.congr {s t : State} (h : s.Inv) (hcfg : t.cfg = s.cfg) (hmem : t.mem = s.mem) (hpc : t.pc = s.pc)
    (hsp : t.sp = s.sp) (hstack : t.stack = s.stack) (hwait : t.wait = s.wait) (hfault : t.fault = s.fault) :
    t.Inv := by
  obtain ⟨h1, h2, h3, h4, h5, h6⟩ := h
  have hword := State.wordAtPC_congr hmem hcfg hpc
  refine ⟨?_, ?_, ?_, ?_, ?_, ?_⟩
  · rwa [State.StackBounded, hsp]
  · rw [State.ReturnsBounded, hsp, hstack]; exact h2
  · rwa [State.PCBounded, hpc]
  · rwa [State.MemoryCanonical, hmem, hcfg]
  · rw [State.waitAtKeyWord, hwait, hpc, hword]; exact h5
  · rw [State.recordPrecise, hfault, hpc, hword, hwait]; exact h6

/-- The invariants of a state with nothing latched or pending are those of its stack, PC and memory. -/
theorem State.Inv.of_idle {s : State} (hsp : s.StackBounded) (hret : s.ReturnsBounded) (hpc : s.PCBounded)
    (hmem : s.MemoryCanonical) (hw : s.wait = none) (hf : s.fault = none) : s.Inv :=
  ⟨hsp, hret, hpc, hmem, State.waitAtKeyWord_of_none hw, State.recordPrecise_of_none hf⟩

/-! ### Taking an error, and the key-wait poll -/

/-- An error that a step can raise, taken with the word at PC or none, keeps the invariants. -/
theorem State.Inv.takeFatal {s : State} (h : s.Inv) (hw : s.wait = none) {e : FatalError} {word : Option Word}
    (he : e.stepCanRaise = true) (hword : word = none ∨ word = some s.wordAtPC) : (s.takeFatal e word).Inv := by
  obtain ⟨h1, h2, h3, h4, -, -⟩ := h
  refine ⟨h1, h2, h3, h4, State.waitAtKeyWord_of_none hw, ?_⟩
  have hat : (s.takeFatal e word).wordAtPC = s.wordAtPC := rfl
  simpa [State.recordPrecise, hw, he, hat] using hword

/-- The poll keeps the invariants: the wait goes on at its word, or ends with PC past it. -/
theorem State.Inv.keyWaitPoll {s : State} (h : s.Inv) (hf : s.fault = none) {w : KeyWait} (hw : s.wait = some w) :
    (s.keyWaitPoll w).Inv := by
  obtain ⟨h1, h2, h3, h4, h5, -⟩ := h
  obtain ⟨hpc, hword⟩ := (State.waitAtKeyWord_of_some hw).1 h5
  rcases s.keyWaitPoll_cases w with ⟨_, hp⟩ | ⟨k, _, hp⟩ <;> rw [hp]
  · exact ⟨h1, h2, h3, h4, (State.waitAtKeyWord_of_some (w := ⟨w.x, s.key⟩) rfl).2 ⟨hpc, hword⟩,
      State.recordPrecise_of_none hf⟩
  · refine .of_idle h1 h2 ?_ h4 rfl hf
    show (s.pc + 2).toNat ≤ 0x10FE
    bv_omega

/-! ### An instruction that completes -/

theorem Completed.stackBounded {i : Instr} {s t : State} (h : Completed i s t) (hs : s.StackBounded) :
    t.StackBounded := by
  unfold State.StackBounded at hs ⊢
  rcases h.stack with ⟨hsp, _⟩ | ⟨_, _, hlt, hsp, _⟩ | ⟨_, hpos, hle, hsp, _⟩ <;> rw [hsp]
  · exact hs
  · bv_omega
  · bv_omega

/-- A CALL pushes the address after its word, at most 0x1000; nothing else writes the stack. -/
theorem Completed.returnsBounded {i : Instr} {s t : State} (h : Completed i s t) (hs : s.ReturnsBounded)
    (hpc : s.pc.toNat ≤ 0xFFE) : t.ReturnsBounded := by
  intro k hk
  rcases h.stack with ⟨hsp, hst⟩ | ⟨_, _, hlt, hsp, hst⟩ | ⟨_, hpos, hle, hsp, hst⟩ <;> rw [hsp] at hk <;>
    simp only [hst]
  · exact hs k hk
  · rw [Vector.getElem_setIfInBounds]
    split
    · bv_omega
    · exact hs k (by bv_omega)
  · exact hs k (by bv_omega)

theorem Completed.pcBounded {i : Instr} {s t : State} (h : Completed i s t) (hs : s.ReturnsBounded)
    (hpc : s.pc.toNat ≤ 0xFFE) : t.PCBounded := by
  unfold State.PCBounded
  rcases h.pc with ht | ht | ht | ht | ⟨_, hpos, hle, ht⟩
  · rw [ht]; omega
  · rw [ht]; bv_omega
  · rw [ht]; bv_omega
  · exact ht
  · have htop : (s.sp - 1).toNat < s.sp.toNat := by bv_omega
    have h16 : (s.sp - 1).toNat < 16 := by bv_omega
    rw [ht, List.getD_eq_getElem _ _ (by simpa using h16), Vector.getElem_toList]
    exact (hs ⟨_, h16⟩ htop).trans (by omega)

theorem Completed.memoryCanonical {i : Instr} {s t : State} (h : Completed i s t) (hs : s.MemoryCanonical) :
    t.MemoryCanonical := by
  unfold State.MemoryCanonical
  rw [h.cfg]
  rcases h.mem with hm | ⟨bs, _, hb, hm⟩ <;> rw [hm]
  · exact hs
  · exact Memory.wf_writeBytes _ bs hs hb

/-- The wait that FX0A begins is at the word of that FX0A. -/
theorem Completed.waitAtKeyWord {i : Instr} {s t : State} (h : Completed i s t) (hr : s.Runs i) :
    t.waitAtKeyWord = true := by
  obtain ⟨_, hw, hpc, hd⟩ := hr
  rcases h.wait with ht | ⟨x, rfl, ht, htpc, htm⟩
  · exact State.waitAtKeyWord_of_none (ht.trans hw)
  · rw [State.waitAtKeyWord_of_some ht, State.wordAtPC_congr htm h.cfg htpc, htpc]
    exact ⟨hpc, (wellFormed_and_encode_of_decode hd).2.symm⟩

theorem Completed.inv {i : Instr} {s t : State} (h : Completed i s t) (hs : s.Inv) (hr : s.Runs i) : t.Inv :=
  have hpc := hr.2.2.1
  ⟨h.stackBounded hs.stackBounded, h.returnsBounded hs.returnsBounded hpc, h.pcBounded hs.returnsBounded hpc,
    h.memoryCanonical hs.memoryCanonical, h.waitAtKeyWord hr, State.recordPrecise_of_none (h.fault.trans hr.1)⟩

theorem RaisedBy.stepCanRaise {i : Instr} {s : State} {e : FatalError} (h : RaisedBy i s e) :
    e.stepCanRaise = true := by
  cases e with
  | unknownOpcode | invalidRegister | programTooLarge => exact h.elim
  | outOfBounds | stackOverflow | stackUnderflow | unspecifiedOperand => rfl

/-- An instruction keeps the invariants where its word stands at PC. -/
theorem State.Inv.exec {i : Instr} {s t : State} (hs : s.Inv) (hr : s.Runs i) (h : exec i s = .next t) : t.Inv := by
  rcases exec_next_cases h with ⟨e, rfl, he⟩ | hc
  · have hword := (wellFormed_and_encode_of_decode hr.2.2.2).2
    exact hs.takeFatal hr.2.1 he.stepCanRaise (.inr (congrArg some hword))
  · exact hc.inv hs hr

/-! ### Every step -/

/-- Settles O58, along everything a step can do. -/
theorem stepKeepsTheInvariants : Obligations.StepKeepsTheInvariants := by
  intro s t hs h
  rcases step_cases s with ⟨r, hf, hstep⟩ | ⟨w, hf, hw, hstep⟩ | ⟨hf, hw, hpc, hstep⟩ |
    ⟨w, hf, hw, hfetch, hd, hstep⟩ | ⟨w, i, hf, hw, hfetch, hd, hstep⟩ <;> rw [hstep] at h
  · cases h; exact hs
  · cases h; exact hs.keyWaitPoll hf hw
  · cases h; exact hs.takeFatal hw rfl (.inl rfl)
  · cases h; exact hs.takeFatal hw rfl (.inr (congrArg some ((s.fetch_eq_ok_iff w).1 hfetch).2))
  · exact hs.exec (State.runs_of_fetch hf hw hfetch hd) h

/-! ### Every move completes -/

/-- An effect that stays within the spec answers a next state. -/
theorem perform_completes {i : Instr} {s : State} {effect : State → Except Stop State}
    (h : ∀ f, effect s.advancePC ≠ .error (.outsideSpec f)) : ∃ t, perform i s effect = .next t := by
  rcases perform_cases i s effect with ⟨t, _, ht⟩ | ⟨e, _, ht⟩ | ⟨f, hf, _⟩
  · exact ⟨t, ht⟩
  · exact ⟨_, ht⟩
  · exact absurd hf (h f)

theorem execRet_completes {s : State} (hs : s.StackBounded) : ∃ t, execRet s = .next t := by
  rcases Nat.eq_zero_or_pos s.sp.toNat with h0 | hpos
  · exact ⟨_, exec_ret_of_empty (by bv_omega)⟩
  · exact ⟨_, exec_ret_of_entry hpos hs⟩

theorem execCallNNN_completes (nnn : Addr12) {s : State} (hs : s.StackBounded) :
    ∃ t, execCallNNN nnn s = .next t := by
  rcases Nat.lt_or_eq_of_le hs with hlt | heq
  · exact ⟨_, exec_callNNN_of_room nnn hlt⟩
  · exact ⟨_, exec_callNNN_of_full nnn (by bv_omega)⟩

theorem exec_completes (i : Instr) {s : State} (hs : s.StackBounded) : ∃ t, exec i s = .next t := by
  cases i
  case ret => exact execRet_completes hs
  case callNNN nnn => exact execCallNNN_completes nnn hs
  case drwVxVyN x y n =>
    unfold exec execDrwVxVyN
    refine perform_completes fun f h => ?_
    rcases s.advancePC.spriteRows_cases n with ⟨_, hr⟩ | ⟨_, _, hr⟩ | ⟨_, _, hr⟩ <;> simp [hr] at h
  case ldFVx x | skpVx x | sknpVx x =>
    simp only [exec, execLdFVx, execSkpVx, execSknpVx]
    refine perform_completes fun f h => ?_
    rcases s.advancePC.nibbleOperand_cases x with ⟨_, _, hn⟩ | ⟨_, hn⟩ <;> simp [hn] at h
  case ldBVx x =>
    unfold exec execLdBVx
    refine perform_completes fun f h => ?_
    obtain ⟨k, hk⟩ := State.memWrite_error h
    cases hk
  case ldMemIVx x =>
    unfold exec execLdMemIVx
    refine perform_completes fun f h => ?_
    cases hw : s.advancePC.memWrite s.advancePC.indexAddr (s.advancePC.regsUpTo x) with
    | ok u => simp [hw] at h
    | error e =>
      obtain ⟨k, rfl⟩ := State.memWrite_error hw
      simp [hw] at h
  case ldVxMemI x =>
    unfold exec execLdVxMemI
    refine perform_completes fun f h => ?_
    rcases s.advancePC.memRead_cases s.advancePC.indexAddr (x.val + 1) with ⟨_, hr⟩ | ⟨_, hr⟩ <;> simp [hr] at h
  all_goals exact ⟨_, rfl⟩

theorem step_completes {s : State} (hs : s.StackBounded) : ∃ t, step s = .next t := by
  rcases step_cases s with ⟨_, _, h⟩ | ⟨_, _, _, h⟩ | ⟨_, _, _, h⟩ | ⟨_, _, _, _, _, h⟩ | ⟨_, i, _, _, _, _, h⟩
  case inr.inr.inr.inr => exact h ▸ exec_completes i hs
  all_goals exact ⟨_, h⟩

@[simp] theorem State.keyWaitPoll_cfg (s : State) (w : KeyWait) : (s.keyWaitPoll w).cfg = s.cfg := by
  rcases s.keyWaitPoll_cases w with ⟨_, h⟩ | ⟨_, _, h⟩ <;> simp [h]

/-- No step writes the configuration (00_scope.md R8). -/
theorem step_cfg {s t : State} (h : step s = .next t) : t.cfg = s.cfg := by
  by_contra hne
  obtain ⟨_, _, hc⟩ := completed_of_step_changes State.cfg (by simp) (by simp) h hne
  exact hne hc.cfg

/-! ### The moves of the host -/

/-- Reset, with any image placed from 0x200 upward and any number of draws taken, meets the invariants. -/
theorem State.Inv.of_image (cfg : Config) (bytes : List Byte) (draws : Nat) (h : bytes.length ≤ 3584) :
    State.Inv { State.initial cfg with
      drawCount := draws, mem := Memory.writeBytes cfg.fontBase [] 0x200 bytes } :=
  .of_idle (by simp [State.initial]) (fun _ hk => absurd hk (Nat.not_lt_zero _)) (by simp [State.initial])
    (Memory.wf_writeBytes cfg.fontBase bytes rfl (by omega)) rfl rfl

theorem State.Inv.load {s : State} (hs : s.Inv) (bytes : List Byte) :
    (s.load bytes).2.Inv ∧ (s.load bytes).2.cfg = s.cfg := by
  rcases s.load_cases bytes with ⟨_, hl⟩ | ⟨hlen, hl⟩ <;> rw [hl]
  · exact ⟨hs, rfl⟩
  · exact ⟨.of_image s.cfg bytes s.drawCount hlen, rfl⟩

/-- Settles O59: a step by O58, a load as a reset with an image, every other move by what the invariants do not look
at. -/
theorem hostMovesKeepTheInvariants : Obligations.HostMovesKeepTheInvariants := by
  intro s e hs
  cases e with
  | step =>
    obtain ⟨t, ht⟩ := step_completes hs.stackBounded
    exact ⟨t, ht, stepKeepsTheInvariants s t hs ht, step_cfg ht⟩
  | tick => exact ⟨_, rfl, hs.congr rfl rfl rfl rfl rfl rfl rfl, rfl⟩
  | setKey k p => exact ⟨_, rfl, hs.congr rfl rfl rfl rfl rfl rfl rfl, rfl⟩
  | snapshot => exact ⟨_, rfl, hs.congr rfl rfl rfl rfl rfl rfl rfl, rfl⟩
  | load bytes => exact ⟨_, rfl, hs.load bytes⟩

/-- Settles O57: reset is the reset with an empty image. -/
theorem resetMeetsTheInvariants : Obligations.ResetMeetsTheInvariants := fun cfg =>
  State.Inv.of_image cfg [] 0 (Nat.zero_le _)

theorem onEvents_of_inv {s : State} (hs : s.Inv) (events : List HostEvent) :
    ∃ t, s.onEvents events = .next t ∧ t.Inv ∧ t.cfg = s.cfg := by
  induction events generalizing s with
  | nil => exact ⟨s, rfl, hs, rfl⟩
  | cons e es ih =>
    obtain ⟨t, ht, hinv, hcfg⟩ := hostMovesKeepTheInvariants s e hs
    rw [State.onEvents, ht, ← hcfg]
    exact ih hinv

/-- Settles O60, move by move from the reset state. -/
theorem everyScheduleRunsToItsEnd : Obligations.EveryScheduleRunsToItsEnd := fun cfg events =>
  onEvents_of_inv (resetMeetsTheInvariants cfg) events

end Sys2Proof.Machine
end

section
/-! PROOFS. Control flow, loads and arithmetic as whole next states (40_control_flow.md, 41_load_arith.md). -/

namespace Sys2Proof.Machine

/-! ### Jumps and skips (40_control_flow.md) -/

theorem zext16_eq_ofNat {n : Nat} (v : BitVec n) : zext16 v = BitVec.ofNat 16 v.toNat := by
  rw [BitVec.ofNat_toNat]

/-- The register of BNNN under its quirk is the high nibble of NNN. -/
theorem val_jumpReg (nnn : Addr12) : (jumpReg nnn).val = nnn.toNat / 256 := by
  have := nnn.isLt
  simp [jumpReg, Nat.shiftRight_eq_div_pow]
  omega

theorem State.toNat_jumpOffset (s : State) (nnn : Addr12) : (s.jumpOffset nnn).toNat =
    if s.cfg.quirkJumpUsesVX then (s.v[nnn.toNat / 256]?.getD 0).toNat else s.v[0].toNat := by
  have h : nnn.toNat / 256 < 16 := by omega
  unfold State.jumpOffset
  split
  · simp [State.getV, val_jumpReg, h]
  · rfl

/-- Settles O16: the sum of 16-bit words is the exact sum, as a word. -/
theorem jumpsLandOnTheirTarget : Obligations.JumpsLandOnTheirTarget := by
  intro nnn s
  rw [← s.toNat_jumpOffset, ← zext16_eq_ofNat, BitVec.ofNat_add, ← zext16_eq_ofNat, ← zext16_eq_ofNat]
  exact ⟨rfl, rfl⟩

/-- A conditional skip moves PC on by 4 or by 2 and writes nothing else (R100). -/
theorem State.skipIf_advancePC (s : State) (c : Bool) :
    s.advancePC.skipIf c = { s with pc := s.pc + (if c then 4 else 2) } := by
  cases c
  · rfl
  · have h : s.pc + 2 + 2 = s.pc + 4 := by rw [BitVec.add_assoc]; rfl
    exact congrArg (fun a => { s with pc := a }) h

theorem next_skipIf_of_iff {s : State} {c : Bool} {P : Prop} [Decidable P] (h : c = true ↔ P) :
    Host.Outcome.next (φ := Fault) (ρ := Refusal) (s.advancePC.skipIf c) =
      .next { s with pc := s.pc + (if P then 4 else 2) } := by
  rw [State.skipIf_advancePC, if_congr h rfl rfl]

theorem next_skipIf_of_iff_not {s : State} {c : Bool} {P : Prop} [Decidable P] (h : c = true ↔ ¬ P) :
    Host.Outcome.next (φ := Fault) (ρ := Refusal) (s.advancePC.skipIf c) =
      .next { s with pc := s.pc + (if P then 2 else 4) } := by
  rw [next_skipIf_of_iff h, ite_not]

/-- Settles O21: each condition is the Boolean test that the skip makes. -/
theorem skipsTestTheirCondition : Obligations.SkipsTestTheirCondition := fun _ _ _ _ =>
  ⟨next_skipIf_of_iff beq_iff_eq, next_skipIf_of_iff_not bne_iff_ne, next_skipIf_of_iff beq_iff_eq,
    next_skipIf_of_iff_not bne_iff_ne⟩

/-! ### The call stack -/

theorem State.push_outside {s : State} (h : 16 < s.sp.toNat) (a : Word) :
    s.push a = .error (.outsideSpec .stackPointerOutOfRange) := by
  rcases s.push_cases a with ⟨h1, _⟩ | ⟨_, h2⟩ | ⟨h1, _⟩
  · bv_omega
  · exact h2
  · bv_omega

theorem State.pop_outside {s : State} (h : 16 < s.sp.toNat) :
    s.pop = .error (.outsideSpec .stackPointerOutOfRange) := by
  rcases s.pop_cases with ⟨h1, _⟩ | ⟨_, h2⟩ | ⟨_, h1, _⟩
  · bv_omega
  · exact h2
  · bv_omega

theorem perform_outside {i : Instr} {s : State} {f : Fault} {effect : State → Except Stop State}
    (h : effect s.advancePC = .error (.outsideSpec f)) : perform i s effect = .fault f := by
  rw [perform, h]

/-- Settles O19: push and pop stop outside the stack of the spec. -/
theorem stackOutsideTheSpecStops : Obligations.StackOutsideTheSpecStops := by
  intro nnn s h
  constructor
  · show execCallNNN nnn s = _
    exact perform_outside (by rw [State.push_outside (s := s.advancePC) h])
  · show execRet s = _
    exact perform_outside (by rw [State.pop_outside (s := s.advancePC) h])

/-- Settles O20: the pop takes the entry that the push put on top. -/
theorem returnResumesAfterItsCall : Obligations.ReturnResumesAfterItsCall := by
  intro nnn s t u hroom hcall hsp hstack
  rw [exec_callNNN_of_room nnn hroom] at hcall
  cases hcall
  have hu : u.sp.toNat = s.sp.toNat + 1 := by rw [hsp]; bv_omega
  refine ⟨_, exec_ret_of_entry (by omega) (by omega), ?_, ?_, rfl⟩
  · simp [hstack, hu]
  · exact (congrArg (· - 1) hsp).trans (BitVec.add_sub_cancel ..)

/-! ### Loads, logic and timers (41_load_arith.md, 45_timers.md) -/

/-- Settles O22: the effects are these writes. -/
theorem loadsCopyTheirSource : Obligations.LoadsCopyTheirSource := fun _ _ _ _ => ⟨rfl, rfl⟩

/-- Settles O23: the truncated sum is the sum modulo 256. -/
theorem addImmediateWritesNoFlag : Obligations.AddImmediateWritesNoFlag := by
  intro x nn s
  rw [← BitVec.toNat_ofNat _ 8, BitVec.ofNat_toNat, BitVec.setWidth_eq]
  rfl

/-- Settles O24, by the library's bitwise operations. -/
theorem logicActsBitwiseWithoutFlag : Obligations.LogicActsBitwiseWithoutFlag := fun _ _ _ =>
  ⟨_, _, _, rfl, rfl, rfl, fun _ _ => ⟨BitVec.getLsbD_or, BitVec.getLsbD_and, BitVec.getLsbD_xor⟩⟩

/-- Settles O28: the effect is this write at the draw counter. -/
theorem randomLoadMasksTheDraw : Obligations.RandomLoadMasksTheDraw := fun _ _ _ => rfl

/-- Settles O47: the effects are these copies. -/
theorem timerInstructionsMoveTheirTimer : Obligations.TimerInstructionsMoveTheirTimer := fun _ _ => ⟨rfl, rfl, rfl⟩

/-! ### Arithmetic with a flag (41_load_arith.md R126 to R133) -/

/-- A result b in VX and then a flag c in VF, the last write (R133). -/
def State.writeFlagged (s : State) (x : Reg) (b : Byte) (c : Bool) : State := (s.advancePC.setV x b).setFlag c

theorem State.writeFlagged_frame (s : State) (x : Reg) (b : Byte) (c : Bool) :
    s.writeFlagged x b c = { s with pc := s.pc + 2, v := (s.writeFlagged x b c).v } := rfl

theorem State.getV_writeFlagged_dest (s : State) {x : Reg} (b : Byte) (c : Bool) (hx : x ≠ vF) :
    (s.writeFlagged x b c).getV x = b := by
  simp [State.writeFlagged, State.getV_setFlag, hx]

@[simp] theorem State.getV_writeFlagged_vF (s : State) (x : Reg) (b : Byte) (c : Bool) :
    (s.writeFlagged x b c).getV vF = if c then 1 else 0 := by
  simp [State.writeFlagged, State.getV_setFlag]

theorem State.getV_writeFlagged_other (s : State) {x r : Reg} (b : Byte) (c : Bool) (hr : r ≠ x) (hF : r ≠ vF) :
    (s.writeFlagged x b c).getV r = s.getV r := by
  simp [State.writeFlagged, State.getV_setFlag, hF, State.getV_setV_other _ _ hr.symm]

theorem toNat_carryFlag (a b : Byte) :
    (if carryFlag a b then (1 : Byte) else 0).toNat = (a.toNat + b.toNat) / 256 := by
  simp only [carryFlag, decide_eq_true_eq]
  split <;> simp <;> omega

/-- Settles O25: the truncated sum, then the carry as the last write. -/
theorem addWritesSumThenCarry : Obligations.AddWritesSumThenCarry := by
  intro x y s
  refine ⟨s.writeFlagged x (sum8 (s.getV x) (s.getV y)) (carryFlag (s.getV x) (s.getV y)), rfl,
    s.writeFlagged_frame .., fun hx => ?_, ?_, fun r hr hF => s.getV_writeFlagged_other _ _ hr hF⟩
  · rw [s.getV_writeFlagged_dest _ _ hx]; rfl
  · rw [s.getV_writeFlagged_vF, toNat_carryFlag]

/-- The difference modulo 256 of exact integers. -/
theorem toNat_diff8 (a b : Byte) : ((diff8 a b).toNat : Int) = (a.toNat - b.toNat : Int) % 256 := by
  simp only [diff8, BitVec.toNat_ofNat]
  omega

theorem noBorrowFlag_value (a b : Byte) :
    (if noBorrowFlag a b then (1 : Byte) else 0) = if b.toNat ≤ a.toNat then 1 else 0 := by
  simp only [noBorrowFlag, decide_eq_true_eq]

/-- Settles O26: the truncated difference, then the flag as the last write. -/
theorem subtractsWriteDifferenceThenNoBorrow : Obligations.SubtractsWriteDifferenceThenNoBorrow := by
  intro x y s
  refine ⟨s.writeFlagged x (diff8 (s.getV x) (s.getV y)) (noBorrowFlag (s.getV x) (s.getV y)),
    s.writeFlagged x (diff8 (s.getV y) (s.getV x)) (noBorrowFlag (s.getV y) (s.getV x)), rfl,
    s.writeFlagged_frame .., rfl, s.writeFlagged_frame .., fun hx => ?_, fun hx => ?_, ?_, ?_, fun r hr hF =>
      ⟨s.getV_writeFlagged_other _ _ hr hF, s.getV_writeFlagged_other _ _ hr hF⟩⟩
  · rw [s.getV_writeFlagged_dest _ _ hx, toNat_diff8]
  · rw [s.getV_writeFlagged_dest _ _ hx, toNat_diff8]
  · rw [s.getV_writeFlagged_vF, noBorrowFlag_value]
  · rw [s.getV_writeFlagged_vF, noBorrowFlag_value]

theorem State.shiftSource_eq (s : State) (x y : Reg) :
    s.shiftSource x y = s.getV (if s.cfg.quirkShiftUsesVY then y else x) := by
  rw [State.shiftSource, apply_ite s.getV]

theorem toNat_shiftedOutRight (b : Byte) : (if shiftedOutRight b then (1 : Byte) else 0).toNat = b.toNat % 2 := by
  simp only [shiftedOutRight, BitVec.getLsbD, Nat.testBit_zero, decide_eq_true_eq]
  split <;> simp <;> omega

theorem toNat_shiftedOutLeft (b : Byte) : (if shiftedOutLeft b then (1 : Byte) else 0).toNat = b.toNat / 128 := by
  simp only [shiftedOutLeft, BitVec.getLsbD, Nat.testBit_eq_decide_div_mod_eq, decide_eq_true_eq]
  split <;> simp <;> omega

/-- Settles O27: the shifted source, then the bit shifted out as the last write. -/
theorem shiftsWriteResultThenLostBit : Obligations.ShiftsWriteResultThenLostBit := by
  intro x y s
  rw [← s.shiftSource_eq]
  generalize hsrc : s.shiftSource x y = src
  refine ⟨s.writeFlagged x (src >>> 1) (shiftedOutRight src), s.writeFlagged x (src <<< 1) (shiftedOutLeft src),
    by rw [← hsrc]; rfl, s.writeFlagged_frame .., by rw [← hsrc]; rfl, s.writeFlagged_frame ..,
    ⟨fun hx => ?_, ?_, ?_⟩, fun r hr hF =>
      ⟨s.getV_writeFlagged_other _ _ hr hF, s.getV_writeFlagged_other _ _ hr hF⟩⟩
  · rw [s.getV_writeFlagged_dest _ _ hx, s.getV_writeFlagged_dest _ _ hx]
    simp [Nat.shiftRight_eq_div_pow, Nat.shiftLeft_eq, Nat.mul_comm]
  · rw [s.getV_writeFlagged_vF, toNat_shiftedOutRight]
  · rw [s.getV_writeFlagged_vF, toNat_shiftedOutLeft]

end Sys2Proof.Machine
end

section
/-! PROOFS. Only CXNN reads the draw counter (00_scope.md R9): any other instruction commutes with setting it. -/

namespace Sys2Proof.Machine

/-- The state with its draw counter at n. -/
def State.withDraws (n : Nat) (s : State) : State := { s with drawCount := n }

variable (n : Nat) (s : State)

/-! ### The shared operations do not read the counter -/

@[simp] theorem State.fetch_withDraws : (s.withDraws n).fetch = s.fetch := rfl
@[simp] theorem State.fault_withDraws : (s.withDraws n).fault = s.fault := rfl
@[simp] theorem State.wait_withDraws : (s.withDraws n).wait = s.wait := rfl

theorem State.skipIf_withDraws (c : Bool) : (s.withDraws n).skipIf c = (s.skipIf c).withDraws n := by
  cases c <;> rfl

theorem State.postIncrementI_withDraws (x : Reg) :
    (s.withDraws n).postIncrementI x = (s.postIncrementI x).withDraws n := by
  unfold State.postIncrementI
  rw [apply_ite (State.withDraws n)]
  rfl

theorem State.push_withDraws (a : Word) : (s.withDraws n).push a = (s.push a).map (State.withDraws n) := by
  unfold State.push
  rw [apply_ite (Except.map _), apply_ite (Except.map _)]
  rfl

theorem State.pop_withDraws : (s.withDraws n).pop = s.pop.map fun p => (p.1, p.2.withDraws n) := by
  unfold State.pop
  rw [apply_ite (Except.map _), apply_ite (Except.map _)]
  rfl

theorem State.memWrite_withDraws (a : Nat) (bytes : List Byte) :
    (s.withDraws n).memWrite a bytes = (s.memWrite a bytes).map (State.withDraws n) := by
  have hcfg : (s.withDraws n).cfg = s.cfg := rfl
  unfold State.memWrite
  rw [hcfg]
  cases check a bytes.length with
  | error _ => rfl
  | ok _ => cases checkReserved s.cfg a <;> rfl

theorem State.keyWaitPoll_withDraws (w : KeyWait) :
    (s.withDraws n).keyWaitPoll w = (s.keyWaitPoll w).withDraws n := by
  have hkey : (s.withDraws n).key = s.key := rfl
  unfold State.keyWaitPoll
  rw [hkey]
  cases newlyPressed s.key w.prev <;> rfl

/-! ### From an effect to a step -/

theorem perform_withDraws {n : Nat} {s : State} {i : Instr} {effect : State → Except Stop State}
    (h : ∀ t, effect (t.withDraws n) = (effect t).map (State.withDraws n)) :
    perform i (s.withDraws n) effect = mapNext (State.withDraws n) (perform i s effect) := by
  have hadv : effect (s.withDraws n).advancePC = (effect s.advancePC).map (State.withDraws n) := h s.advancePC
  rcases perform_cases i s effect with ⟨t, he, hp⟩ | ⟨e, he, hp⟩ | ⟨f, he, hp⟩ <;> rw [he] at hadv <;> rw [hp]
  · exact perform_ok hadv
  · exact perform_raise hadv
  · exact perform_outside hadv

/-! ### One lemma per instruction that can raise -/

theorem execRet_withDraws : execRet (s.withDraws n) = mapNext (State.withDraws n) (execRet s) := by
  refine perform_withDraws fun t => ?_
  rw [State.pop_withDraws]
  cases t.pop <;> rfl

theorem execCallNNN_withDraws (nnn : Addr12) :
    execCallNNN nnn (s.withDraws n) = mapNext (State.withDraws n) (execCallNNN nnn s) := by
  refine perform_withDraws fun t => ?_
  have hpc : (t.withDraws n).pc = t.pc := rfl
  rw [State.push_withDraws, hpc]
  cases t.push t.pc <;> rfl

theorem execDrwVxVyN_withDraws (x y : Reg) (rows : Nat) :
    execDrwVxVyN x y rows (s.withDraws n) = mapNext (State.withDraws n) (execDrwVxVyN x y rows s) := by
  refine perform_withDraws fun t => ?_
  have hrows : (t.withDraws n).spriteRows rows = t.spriteRows rows := rfl
  rw [hrows]
  cases t.spriteRows rows <;> rfl

theorem State.nibbleOperand_withDraws (x : Reg) : (s.withDraws n).nibbleOperand x = s.nibbleOperand x := rfl

theorem execLdFVx_withDraws (x : Reg) :
    execLdFVx x (s.withDraws n) = mapNext (State.withDraws n) (execLdFVx x s) := by
  refine perform_withDraws fun t => ?_
  rw [State.nibbleOperand_withDraws]
  cases t.nibbleOperand x <;> rfl

theorem execSkpVx_withDraws (x : Reg) :
    execSkpVx x (s.withDraws n) = mapNext (State.withDraws n) (execSkpVx x s) := by
  refine perform_withDraws fun t => ?_
  rw [State.nibbleOperand_withDraws]
  cases t.nibbleOperand x with
  | error _ => rfl
  | ok k => exact congrArg Except.ok (t.skipIf_withDraws n _)

theorem execSknpVx_withDraws (x : Reg) :
    execSknpVx x (s.withDraws n) = mapNext (State.withDraws n) (execSknpVx x s) := by
  refine perform_withDraws fun t => ?_
  rw [State.nibbleOperand_withDraws]
  cases t.nibbleOperand x with
  | error _ => rfl
  | ok k => exact congrArg Except.ok (t.skipIf_withDraws n _)

theorem execLdBVx_withDraws (x : Reg) :
    execLdBVx x (s.withDraws n) = mapNext (State.withDraws n) (execLdBVx x s) :=
  perform_withDraws fun t => t.memWrite_withDraws n _ _

theorem execLdMemIVx_withDraws (x : Reg) :
    execLdMemIVx x (s.withDraws n) = mapNext (State.withDraws n) (execLdMemIVx x s) := by
  refine perform_withDraws fun t => ?_
  have hregs : (t.withDraws n).regsUpTo x = t.regsUpTo x := rfl
  have haddr : (t.withDraws n).indexAddr = t.indexAddr := rfl
  rw [State.memWrite_withDraws, hregs, haddr]
  cases t.memWrite t.indexAddr (t.regsUpTo x) with
  | error _ => rfl
  | ok u => exact congrArg Except.ok (u.postIncrementI_withDraws n x)

theorem execLdVxMemI_withDraws (x : Reg) :
    execLdVxMemI x (s.withDraws n) = mapNext (State.withDraws n) (execLdVxMemI x s) := by
  refine perform_withDraws fun t => ?_
  have hread : (t.withDraws n).memRead (t.withDraws n).indexAddr (x.val + 1) = t.memRead t.indexAddr (x.val + 1) := rfl
  rw [hread]
  cases t.memRead t.indexAddr (x.val + 1) with
  | error _ => rfl
  | ok bytes => exact congrArg Except.ok (State.postIncrementI_withDraws n { t with v := loadRegs t.v 0 bytes } x)

/-! ### All instructions, and every step -/

theorem exec_withDraws {i : Instr} (hi : ∀ x nn, i ≠ .rndVxNN x nn) :
    exec i (s.withDraws n) = mapNext (State.withDraws n) (exec i s) := by
  cases i
  case rndVxNN x nn => exact absurd rfl (hi x nn)
  case ret => exact execRet_withDraws n s
  case callNNN nnn => exact execCallNNN_withDraws n s nnn
  case drwVxVyN x y rows => exact execDrwVxVyN_withDraws n s x y rows
  case ldFVx x => exact execLdFVx_withDraws n s x
  case skpVx x => exact execSkpVx_withDraws n s x
  case sknpVx x => exact execSknpVx_withDraws n s x
  case ldBVx x => exact execLdBVx_withDraws n s x
  case ldMemIVx x => exact execLdMemIVx_withDraws n s x
  case ldVxMemI x => exact execLdVxMemI_withDraws n s x
  case seVxNN | sneVxNN | seVxVy | sneVxVy =>
    exact congrArg Host.Outcome.next (State.skipIf_withDraws n s.advancePC _)
  all_goals rfl

theorem runInstruction_withDraws {s : State}
    (h : ∀ w i, s.fetch = .ok w → decode w = .ok i → ∀ x nn, i ≠ .rndVxNN x nn) :
    runInstruction (s.withDraws n) = mapNext (State.withDraws n) (runInstruction s) := by
  unfold runInstruction
  rw [State.fetch_withDraws]
  cases hfetch : s.fetch with
  | error e => cases e <;> rfl
  | ok w =>
    dsimp only
    cases hd : decode w with
    | error _ => rfl
    | ok i => exact exec_withDraws n s (h w i hfetch hd)

/-- Settles O29: with nothing latched or pending, by noninterference of the instruction that runs. -/
theorem onlyRandomLoadReadsTheDraw : Obligations.OnlyRandomLoadReadsTheDraw := by
  intro s n hno
  change step (s.withDraws n) = mapNext (State.withDraws n) (step s)
  unfold step cycle
  rw [State.fault_withDraws, State.wait_withDraws]
  cases hf : s.fault with
  | some _ => rfl
  | none =>
    cases hw : s.wait with
    | some w => exact congrArg Host.Outcome.next (s.keyWaitPoll_withDraws n w)
    | none =>
      refine runInstruction_withDraws n fun w i hfetch hd x nn hi => hno x nn ?_
      exact State.runs_of_fetch hf hw hfetch (hi ▸ hd)

end Sys2Proof.Machine
end

section
/-! PROOFS. Memory, the index register, and the host's load (20_memory.md, 42_index_memory.md,
70_reset_and_hazards.md). -/

namespace Sys2Proof.Machine

/-! ### The checked accesses inside and outside their bounds -/

theorem State.memRead_of_bounds (s : State) {a n : Nat} (h : a + n - 1 ≤ 0xFFF) :
    s.memRead a n = .ok (s.mem.readBytes s.cfg.fontBase a n) := by
  rcases s.memRead_cases a n with ⟨_, hr⟩ | ⟨hout, _⟩
  · exact hr
  · omega

theorem State.memRead_of_out (s : State) {a n : Nat} (h : 0xFFF < a + n - 1) :
    s.memRead a n = .error (.raise (.outOfBounds (max a 0x1000))) := by
  rcases s.memRead_cases a n with ⟨hin, _⟩ | ⟨_, hr⟩
  · omega
  · exact hr

theorem State.memWrite_of_out (s : State) {a : Nat} {bs : List Byte} (h : 0xFFF < a + bs.length - 1) :
    s.memWrite a bs = .error (.raise (.outOfBounds (max a 0x1000))) := by
  rcases s.memWrite_cases a bs with ⟨_, hw⟩ | ⟨hin, _⟩ | ⟨hin, _⟩
  · exact hw
  · omega
  · omega

theorem State.memWrite_of_reserved (s : State) {a : Nat} {bs : List Byte} (h : a + bs.length - 1 ≤ 0xFFF)
    (hc : s.cfg.reservedWriteFaults = true) (ha : a < 0x200) :
    s.memWrite a bs = .error (.raise (.outOfBounds a)) := by
  rcases s.memWrite_cases a bs with ⟨hout, _⟩ | ⟨_, _, _, hw⟩ | ⟨_, hok, _⟩
  · omega
  · exact hw
  · rcases hok with hf | hle
    · simp [hc] at hf
    · omega

theorem State.memWrite_of_ok (s : State) {a : Nat} {bs : List Byte} (h : a + bs.length - 1 ≤ 0xFFF)
    (ha : s.cfg.reservedWriteFaults = true → 0x200 ≤ a) :
    s.memWrite a bs = .ok { s with mem := s.mem.writeBytes s.cfg.fontBase a bs } := by
  rcases s.memWrite_cases a bs with ⟨hout, _⟩ | ⟨_, hc, hlt, _⟩ | ⟨_, _, hw⟩
  · omega
  · exact absurd (ha hc) (by omega)
  · exact hw

theorem getElem?_readBytes (fb : Fin 0x1B1) (m : Memory) {a n k : Nat} (h : k < n) :
    (m.readBytes fb a n)[k]? = some (m.read fb (a + k)) := by
  have hlen : k < (m.readBytes fb a n).length := by simpa using h
  rw [List.getElem?_eq_getElem hlen, ← List.getD_eq_getElem _ 0 hlen, Memory.getD_readBytes fb m a n k 0 h]

theorem toNat_wordOfBytes (hi lo : Byte) : (wordOfBytes hi lo).toNat = hi.toNat * 256 + lo.toNat := by
  have := lo.isLt
  rw [wordOfBytes, BitVec.toNat_append, ← Nat.shiftLeft_add_eq_or_of_lt this, Nat.shiftLeft_eq]

/-- The lowest address out of range of an access from a on. -/
theorem max_eq_lowest (a : Nat) : max a 0x1000 = if a < 0x1000 then 0x1000 else a := by
  split <;> omega

/-- Settles O14: inside the bounds the bytes read, outside them the error of the check. -/
theorem memReadGivesTheBytesInOrder : Obligations.MemReadGivesTheBytesInOrder := by
  intro s a n hn
  refine ⟨fun h => ⟨_, s.memRead_of_bounds h, by simp, fun k hk => getElem?_readBytes _ _ hk⟩, ?_, fun h => ?_⟩
  · rintro h rfl rfl
    exact ⟨_, State.fetch_of_room (by omega), toNat_wordOfBytes ..⟩
  · rw [s.memRead_of_out h, max_eq_lowest]

/-- Settles O15: the cases of the two checks, and the bytes of a store. -/
theorem memWriteChangesOnlyItsBytes : Obligations.MemWriteChangesOnlyItsBytes := by
  intro s a bs hs hne
  have hlen : 0 < bs.length := List.length_pos_iff.2 hne
  refine ⟨fun h => ?_, fun h hc ha => s.memWrite_of_reserved h hc ha, fun h ha => ?_⟩
  · rw [s.memWrite_of_out h, max_eq_lowest]
  · exact ⟨_, s.memWrite_of_ok h ha, rfl, s.byteAt_writeBytes hs a bs (by omega)⟩

/-! ### The index register (42_index_memory.md) -/

/-- Settles O30: the sum of words is the exact sum modulo 2^16. -/
theorem indexLoadsAndAdds : Obligations.IndexLoadsAndAdds := by
  intro x nnn s
  have hsum : s.i + zext16 s.v[x.val] = BitVec.ofNat 16 ((s.i.toNat + s.v[x.val].toNat) % 0x10000) := by
    apply BitVec.eq_of_toNat_eq
    simp
  rw [← zext16_eq_ofNat, ← hsum]
  exact ⟨rfl, rfl⟩

theorem State.nibbleOperand_of_lt {s : State} {x : Reg} (h : (s.getV x).toNat < 16) :
    s.nibbleOperand x = .ok ⟨(s.getV x).toNat, h⟩ := by
  rw [State.nibbleOperand, dif_pos h]

theorem State.nibbleOperand_of_gt {s : State} {x : Reg} (h : 0xF < (s.getV x).toNat) :
    s.nibbleOperand x = .error (.raise (.unspecifiedOperand (s.getV x))) := by
  rw [State.nibbleOperand, dif_neg (by omega)]

theorem exec_ldFVx_of_lt {s : State} {x : Reg} (h : (s.getV x).toNat < 16) :
    exec (.ldFVx x) s = .next { s with
      pc := s.pc + 2, i := BitVec.ofNat 16 (s.cfg.fontBase.val + 5 * (s.getV x).toNat) } := by
  show execLdFVx x s = _
  exact perform_ok (by rw [State.nibbleOperand_of_lt (s := s.advancePC) h]; rfl)

/-- Settles O31: the operand is a digit, or it raises. -/
theorem fontAddressOfADigit : Obligations.FontAddressOfADigit := by
  intro x s
  refine ⟨fun h => exec_ldFVx_of_lt (by omega), fun h => ?_⟩
  show execLdFVx x s = _
  exact perform_raise (by rw [State.nibbleOperand_of_gt (s := s.advancePC) h]; rfl)

/-- The font's byte, where the reset contents hold it. -/
theorem initialByte_font (fb : Fin 0x1B1) {k : Nat} (h : k < 80) : font[k]? = some (initialByte fb (fb.val + k)) := by
  have hk : k < font.length := by simpa using h
  rw [initialByte, if_neg (by omega), Nat.add_sub_cancel_left, List.getD_eq_getElem _ _ hk, List.getElem?_eq_getElem hk]

/-- Settles O32: the address is within 16 bits, so the bytes there are the reset contents of the font. -/
theorem fontSpritesStandAtTheirAddress : Obligations.FontSpritesStandAtTheirAddress := by
  intro cfg d x s t hcfg hmem hd h k hk
  have hlt : (s.getV x).toNat < 16 := by omega
  rw [exec_ldFVx_of_lt hlt] at h
  cases h
  have haddr : (BitVec.ofNat 16 (s.cfg.fontBase.val + 5 * (s.getV x).toNat)).toNat + k =
      s.cfg.fontBase.val + (5 * d.val + k) := by
    rw [BitVec.toNat_ofNat]; omega
  rw [initialByte_font s.cfg.fontBase (by omega : 5 * d.val + k < 80)]
  simp only [State.byteAt, haddr, hmem]
  rfl

/-! ### Stores (FX33, FX55) -/

/-- The three digits of a byte are at most 9 and make it. -/
theorem decimalDigits_value (b : Byte) : ∃ h t u : Byte, decimalDigits b = [h, t, u] ∧
    h.toNat * 100 + t.toNat * 10 + u.toNat = b.toNat ∧ h.toNat ≤ 9 ∧ t.toNat ≤ 9 ∧ u.toNat ≤ 9 := by
  have := b.isLt
  refine ⟨_, _, _, rfl, ?_, ?_, ?_, ?_⟩ <;> simp only [BitVec.toNat_ofNat] <;> omega

theorem exec_ldBVx_of_ok {s : State} {x : Reg} (h : s.i.toNat + 2 ≤ 0xFFF)
    (ha : s.cfg.reservedWriteFaults = true → 0x200 ≤ s.i.toNat) :
    exec (.ldBVx x) s = .next { s with
      pc := s.pc + 2, mem := s.mem.writeBytes s.cfg.fontBase s.i.toNat (decimalDigits (s.getV x)) } := by
  show execLdBVx x s = _
  exact perform_ok (s.advancePC.memWrite_of_ok (a := s.i.toNat) h ha)

theorem exec_ldBVx_of_out {s : State} {x : Reg} (h : 0xFFF < s.i.toNat + 2) :
    exec (.ldBVx x) s = .next (s.takeFatal (.outOfBounds (max s.i.toNat 0x1000)) (some (encode (.ldBVx x)))) := by
  show execLdBVx x s = _
  exact perform_raise (s.advancePC.memWrite_of_out (a := s.i.toNat) h)

theorem exec_ldBVx_of_reserved {s : State} {x : Reg} (hc : s.cfg.reservedWriteFaults = true)
    (ha : s.i.toNat < 0x200) :
    exec (.ldBVx x) s = .next (s.takeFatal (.outOfBounds s.i.toNat) (some (encode (.ldBVx x)))) := by
  have hb : s.i.toNat + (decimalDigits (s.getV x)).length - 1 ≤ 0xFFF := by simp [decimalDigits]; omega
  show execLdBVx x s = _
  exact perform_raise (s.advancePC.memWrite_of_reserved (a := s.i.toNat) hb hc ha)

/-- Settles O33: FX33 stores the digits, which make the byte, or raises. -/
theorem decimalDigitsAreStored : Obligations.DecimalDigitsAreStored := by
  intro x s hs
  refine ⟨fun h ha => ⟨_, exec_ldBVx_of_ok h ha, rfl, ?_⟩, exec_ldBVx_of_out, exec_ldBVx_of_reserved⟩
  obtain ⟨b₂, b₁, b₀, hdigits, hvalue, h₂, h₁, h₀⟩ := decimalDigits_value (s.getV x)
  have hread (a : Nat) : State.byteAt { s with
      pc := s.pc + 2, mem := s.mem.writeBytes s.cfg.fontBase s.i.toNat (decimalDigits (s.getV x)) } a =
      if s.i.toNat ≤ a ∧ a < s.i.toNat + 3 then [b₂, b₁, b₀].getD (a - s.i.toNat) 0 else s.byteAt a :=
    hdigits ▸ s.byteAt_writeBytes hs s.i.toNat [b₂, b₁, b₀] (by simp; omega) a
  simp only [hread]
  exact ⟨by simpa using hvalue, by simpa using h₂, by simpa using h₁, by simpa using h₀,
    fun a ha => if_neg (by omega)⟩

/-! ### Groups of registers (FX55, FX65) -/

theorem State.postIncrementI_eq (s : State) (x : Reg) : s.postIncrementI x = { s with
    i := if s.cfg.quirkLoadStoreIncrementsI then BitVec.ofNat 16 (s.i.toNat + x.val + 1) else s.i } := by
  have hi : s.i + BitVec.ofNat 16 (x.val + 1) = BitVec.ofNat 16 (s.i.toNat + x.val + 1) := by
    rw [Nat.add_assoc, BitVec.ofNat_add s.i.toNat, BitVec.ofNat_toNat, BitVec.setWidth_eq]
  unfold State.postIncrementI
  split
  · rw [hi]; rfl
  · rfl

theorem exec_ldMemIVx_of_ok {s : State} {x : Reg} (h : s.i.toNat + x.val ≤ 0xFFF)
    (ha : s.cfg.reservedWriteFaults = true → 0x200 ≤ s.i.toNat) :
    exec (.ldMemIVx x) s = .next (State.postIncrementI { s with
      pc := s.pc + 2, mem := s.mem.writeBytes s.cfg.fontBase s.i.toNat (s.regsUpTo x) } x) := by
  have hb : s.advancePC.i.toNat + (s.advancePC.regsUpTo x).length - 1 ≤ 0xFFF := by simp; omega
  show execLdMemIVx x s = _
  exact perform_ok (by rw [State.indexAddr, s.advancePC.memWrite_of_ok hb ha]; rfl)

theorem exec_ldMemIVx_of_out {s : State} {x : Reg} (h : 0xFFF < s.i.toNat + x.val) :
    exec (.ldMemIVx x) s = .next (s.takeFatal (.outOfBounds (max s.i.toNat 0x1000)) (some (encode (.ldMemIVx x)))) := by
  have hb : 0xFFF < s.advancePC.i.toNat + (s.advancePC.regsUpTo x).length - 1 := by simp; omega
  show execLdMemIVx x s = _
  exact perform_raise (by rw [State.indexAddr, s.advancePC.memWrite_of_out hb]; rfl)

theorem exec_ldMemIVx_of_reserved {s : State} {x : Reg} (hc : s.cfg.reservedWriteFaults = true)
    (ha : s.i.toNat < 0x200) :
    exec (.ldMemIVx x) s = .next (s.takeFatal (.outOfBounds s.i.toNat) (some (encode (.ldMemIVx x)))) := by
  have hb : s.advancePC.i.toNat + (s.advancePC.regsUpTo x).length - 1 ≤ 0xFFF := by simp; omega
  show execLdMemIVx x s = _
  exact perform_raise (by rw [State.indexAddr, s.advancePC.memWrite_of_reserved hb hc ha]; rfl)

/-- The bytes of memory after FX55: the registers from I upward. -/
theorem State.byteAt_bulkStore {s : State} {x : Reg} (hs : s.MemoryCanonical) (h : s.i.toNat + x.val ≤ 0xFFF)
    (a : Nat) : (s.mem.writeBytes s.cfg.fontBase s.i.toNat (s.regsUpTo x)).read s.cfg.fontBase a =
      if s.i.toNat ≤ a ∧ a ≤ s.i.toNat + x.val then (s.regsUpTo x).getD (a - s.i.toNat) 0 else s.byteAt a := by
  rw [Memory.read_writeBytes _ _ hs (by simp; omega), State.length_regsUpTo]
  exact if_congr (by omega) rfl rfl

/-- Settles O34: FX55 stores the registers from I upward, or raises. -/
theorem bulkStoreWritesTheRegisters : Obligations.BulkStoreWritesTheRegisters := by
  intro x s hs
  refine ⟨fun h ha => ⟨_, exec_ldMemIVx_of_ok h ha, ?_, fun r hr => ?_, fun a hout => ?_⟩, exec_ldMemIVx_of_out,
    exec_ldMemIVx_of_reserved⟩
  · rw [State.postIncrementI_eq]
  · rw [State.byteAt_postIncrementI, State.byteAt, State.byteAt_bulkStore hs h,
      if_pos ⟨by omega, Nat.add_le_add_left hr _⟩, Nat.add_sub_cancel_left, State.getD_regsUpTo s x r hr]
    rfl
  · rw [State.byteAt_postIncrementI, State.byteAt, State.byteAt_bulkStore hs h, if_neg (by omega)]

theorem exec_ldVxMemI_of_ok {s : State} {x : Reg} (h : s.i.toNat + x.val ≤ 0xFFF) :
    exec (.ldVxMemI x) s = .next (State.postIncrementI { s with
      pc := s.pc + 2, v := loadRegs s.v 0 (s.mem.readBytes s.cfg.fontBase s.i.toNat (x.val + 1)) } x) := by
  show execLdVxMemI x s = _
  exact perform_ok (by rw [State.indexAddr, s.advancePC.memRead_of_bounds (by exact h)]; rfl)

theorem exec_ldVxMemI_of_out {s : State} {x : Reg} (h : 0xFFF < s.i.toNat + x.val) :
    exec (.ldVxMemI x) s = .next (s.takeFatal (.outOfBounds (max s.i.toNat 0x1000)) (some (encode (.ldVxMemI x)))) := by
  show execLdVxMemI x s = _
  exact perform_raise (by rw [State.indexAddr, s.advancePC.memRead_of_out (by exact h)]; rfl)

/-- The registers after FX65: V0 to VX from memory. -/
theorem State.getElem_bulkLoad (s : State) (x r : Reg) :
    (loadRegs s.v 0 (s.mem.readBytes s.cfg.fontBase s.i.toNat (x.val + 1)))[r.val] =
      if r ≤ x then s.byteAt (s.i.toNat + r.val) else s.getV r := by
  rw [loadRegs_getElem, Memory.length_readBytes, Nat.sub_zero]
  have hle : (0 ≤ r.val ∧ r.val < 0 + (x.val + 1)) ↔ r ≤ x := by rw [Fin.le_def]; omega
  rw [if_congr hle rfl rfl]
  by_cases hr : r ≤ x
  · rw [if_pos hr, if_pos hr, Memory.getD_readBytes _ _ _ _ _ _ (Nat.lt_succ_of_le hr)]; rfl
  · rw [if_neg hr, if_neg hr]; rfl

/-- Settles O35: FX65 loads the registers from I upward, or raises. -/
theorem bulkLoadFillsTheRegisters : Obligations.BulkLoadFillsTheRegisters := by
  intro x s
  refine ⟨fun h => ⟨_, exec_ldVxMemI_of_ok h, ?_, fun r => ?_⟩, exec_ldVxMemI_of_out⟩
  · rw [State.postIncrementI_eq]
  · rw [State.getV_postIncrementI]
    exact s.getElem_bulkLoad x r

/-- Settles O36: FX65 reads back the bytes that FX55 stored. -/
theorem bulkLoadRecoversABulkStore : Obligations.BulkLoadRecoversABulkStore := by
  intro x s t u hs hb ha hstore hmem hcfg hi
  obtain ⟨t', ht', _, hstored, _⟩ := (bulkStoreWritesTheRegisters x s hs).1 hb ha
  cases hstore.symm.trans ht'
  obtain ⟨w, hw, _, hloaded⟩ := (bulkLoadFillsTheRegisters x u).1 (hi ▸ hb)
  refine ⟨w, hw, fun r hr => ?_⟩
  rw [hloaded r, if_pos hr, hi, State.byteAt_congr hmem hcfg, hstored r hr]

/-! ### Reset and load (70_reset_and_hazards.md R240, R241) -/

/-- Settles O52: the image is written on the reset contents. -/
theorem loadResetsAndPlacesTheImage : Obligations.LoadResetsAndPlacesTheImage := by
  intro s bytes
  rcases s.load_cases bytes with ⟨hlen, h⟩ | ⟨hlen, h⟩
  · exact ⟨fun h' => by omega, fun _ => h⟩
  · refine ⟨fun _ => ⟨_, h, rfl, fun a => ?_⟩, fun h' => by omega⟩
    exact Memory.read_writeBytes s.cfg.fontBase (m := []) bytes rfl (by omega) a

/-- The reset contents are the font's bytes at FONT_BASE and zero elsewhere. -/
theorem initialByte_eq (fb : Fin 0x1B1) (a : Nat) :
    initialByte fb a = if fb.val ≤ a ∧ a < fb.val + 80 then font.getD (a - fb.val) 0 else 0 := by
  by_cases h : fb.val ≤ a ∧ a < fb.val + 80
  · rw [if_pos h, initialByte, if_neg (by omega)]
  · rw [if_neg h, initialByte_outside_font fb a (by omega)]

/-- Settles O53: the values of `State.initial`, and the font in the reset contents. -/
theorem resetLeavesTheListedValues : Obligations.ResetLeavesTheListedValues := by
  intro cfg
  exact ⟨initialByte_eq cfg.fontBase, rfl, rfl, rfl, rfl, pixel_blankDisplay, fun k => by simp [State.initial], rfl⟩

end Sys2Proof.Machine
end

section
/-! PROOFS. Keys, the key wait and the timers (44_input.md, 45_timers.md). -/

namespace Sys2Proof.Machine

/-! ### The key skips -/

theorem exec_skpVx_of_lt {s : State} {x : Reg} (h : (s.getV x).toNat < 16) :
    exec (.skpVx x) s = .next (s.advancePC.skipIf s.key[(s.getV x).toNat]) := by
  show execSkpVx x s = _
  exact perform_ok (by rw [State.nibbleOperand_of_lt (s := s.advancePC) h]; rfl)

theorem exec_sknpVx_of_lt {s : State} {x : Reg} (h : (s.getV x).toNat < 16) :
    exec (.sknpVx x) s = .next (s.advancePC.skipIf (!s.key[(s.getV x).toNat])) := by
  show execSknpVx x s = _
  exact perform_ok (by rw [State.nibbleOperand_of_lt (s := s.advancePC) h]; rfl)

/-- Settles O42: the operand is a key number, or it raises. -/
theorem keySkipsTestTheNamedKey : Obligations.KeySkipsTestTheNamedKey := by
  intro x s
  refine ⟨fun h => ⟨?_, ?_⟩, fun h => ⟨?_, ?_⟩⟩
  · rw [exec_skpVx_of_lt h]; exact next_skipIf_of_iff Iff.rfl
  · rw [exec_sknpVx_of_lt h]; exact next_skipIf_of_iff_not (by simp)
  · show execSkpVx x s = _
    exact perform_raise (by rw [State.nibbleOperand_of_gt (s := s.advancePC) h]; rfl)
  · show execSknpVx x s = _
    exact perform_raise (by rw [State.nibbleOperand_of_gt (s := s.advancePC) h]; rfl)

/-! ### The key wait -/

/-- FX0A takes back the advance of PC (R187). -/
theorem exec_ldVxK (x : Reg) (s : State) :
    exec (.ldVxK x) s = .next { s with wait := some { x := x, prev := s.key } } := by
  have hpc : s.pc + 2 - 2 = s.pc := BitVec.add_sub_cancel ..
  exact congrArg (fun a => Host.Outcome.next { s with wait := some { x := x, prev := s.key }, pc := a }) hpc

theorem State.stepResult_of_wait {s : State} {w : KeyWait} (hf : s.fault = none) (hw : s.wait = some w) :
    s.stepResult = .awaitingInput := by
  rw [State.stepResult, hf, hw]

/-- Settles O43: the wait set, PC taken back to the word. -/
theorem keyWaitBeginsWithoutAdvancing : Obligations.KeyWaitBeginsWithoutAdvancing := fun x s =>
  ⟨exec_ldVxK x s, fun hf => State.stepResult_of_wait hf rfl⟩

theorem newlyPressed_eq_none {key prev : KeyStates}
    (h : ∀ k : KeyIndex, key[k.val] = true → prev[k.val] = true) : newlyPressed key prev = none := by
  refine List.find?_eq_none.2 fun k _ => ?_
  simpa using h k

/-- The lowest newly pressed key is the one found, as the keys are looked at in rising order. -/
theorem newlyPressed_eq_some {key prev : KeyStates} {k : KeyIndex} (hk : key[k.val] = true) (hp : prev[k.val] = false)
    (hlow : ∀ j : KeyIndex, j < k → key[j.val] = true → prev[j.val] = true) : newlyPressed key prev = some k := by
  obtain ⟨before, rest, hsplit⟩ := List.append_of_mem (mem_allKeys k)
  have hrising := allKeys_rising
  rw [hsplit, List.pairwise_append] at hrising
  obtain ⟨_, _, hbefore⟩ := hrising
  refine List.find?_eq_some_iff_append.2 ⟨by simp [hk, hp], before, rest, hsplit, fun j hj => ?_⟩
  have hheld := hlow j (hbefore j hj k List.mem_cons_self)
  cases hkey : key[j.val] with
  | false => rfl
  | true => simp [hheld hkey]

/-- Settles O44: the poll looks at the keys in rising order. -/
theorem keyWaitPollTakesTheLowestNewKey : Obligations.KeyWaitPollTakesTheLowestNewKey := by
  intro s w hf hw
  refine ⟨fun hno => ?_, fun k hk hp hlow => ?_⟩
  · rw [step_of_wait hf hw, State.keyWaitPoll, newlyPressed_eq_none hno]
  · rw [step_of_wait hf hw, State.keyWaitPoll, newlyPressed_eq_some hk hp hlow]
    rfl

/-- Settles O45: the poll finds no key as long as the keys are those of the last look, and then the one key set. -/
theorem keyWaitHoldsUntilAPress : Obligations.KeyWaitHoldsUntilAPress := by
  intro x k s t hf hup h
  rw [exec_ldVxK] at h
  cases h
  refine ⟨run_of_step_eq (M := core) ?_, State.stepResult_of_wait hf rfl, rfl, ?_⟩
  · exact (keyWaitPollTakesTheLowestNewKey { s with wait := some ⟨x, s.key⟩ } ⟨x, s.key⟩ hf rfl).1
      fun _ hk => hk
  have hstep := (keyWaitPollTakesTheLowestNewKey
    (State.setKey { s with wait := some ⟨x, s.key⟩ } k true) ⟨x, s.key⟩ hf rfl).2 k (by simp) hup
  refine ⟨_, hstep fun j hj hkey => ?_, by simp [State.getV], rfl, rfl⟩
  have hne : k.val ≠ j.val := fun he => absurd hj (by simp [Fin.ext he])
  simpa [hne] using hkey

/-! ### The moves of the host -/

/-- Settles O51: a write to the vector of keys, and a write to DrawFlag. -/
theorem hostOperationsTouchOnlyTheirField : Obligations.HostOperationsTouchOnlyTheirField := by
  intro s k p
  refine ⟨⟨_, rfl, fun j => ?_⟩, rfl⟩
  rw [Vector.getElem_set]
  exact if_congr (by rw [Fin.ext_iff, eq_comm]) rfl rfl

/-- Settles O50, tick by tick. -/
theorem ticksCountDownToZero : Obligations.TicksCountDownToZero := by
  intro s n
  induction n generalizing s with
  | zero => exact ⟨s, rfl, rfl, rfl, rfl⟩
  | succ n ih =>
    obtain ⟨t, ht, hframe, hdt, hst⟩ := ih s.tick
    refine ⟨t, ht, hframe, ?_, ?_⟩
    · rw [hdt, State.tick_dt, toNat_countDown]; omega
    · rw [hst, State.tick_st, toNat_countDown]; omega

end Sys2Proof.Machine
end

section
/-! PROOFS. Drawing (43_display.md R171): the loops over rows and columns plot a list of points, no two of which land on
one pixel, so each pixel is toggled exactly when the sprite covers it, and collides when it was set before the draw. -/

namespace Sys2Proof.Machine

/-! ### The loops as a list of points -/

/-- The points of the set bits at the column offsets cs of one row, left to right. -/
def rowPoints (row : Byte) (x₀ y : Nat) (cs : List Nat) : List (Nat × Nat) :=
  (cs.filter fun c => row.getLsbD (7 - c)).map fun c => (x₀ + c, y)

/-- The points of a sprite's set bits, row by row. -/
def spritePoints (x₀ y : Nat) : List Byte → List (Nat × Nat)
  | [] => []
  | row :: rows => rowPoints row x₀ y spriteColumns ++ spritePoints x₀ (y + 1) rows

/-- Plot the points in order. -/
def plotAll (wrap : Bool) (points : List (Nat × Nat)) (a : Display × Bool) : Display × Bool :=
  points.foldl (fun a p => plot wrap p.1 p.2 a) a

theorem drawColumns_eq_plotAll (wrap : Bool) (row : Byte) (x₀ y : Nat) (cs : List Nat) (a : Display × Bool) :
    drawColumns wrap row x₀ y cs a = plotAll wrap (rowPoints row x₀ y cs) a := by
  induction cs generalizing a with
  | nil => rfl
  | cons c cs ih =>
    rw [drawColumns, ih]
    cases hbit : row.getLsbD (7 - c) <;> simp [rowPoints, plotAll, hbit]

theorem drawRows_eq_plotAll (wrap : Bool) (x₀ y : Nat) (rows : List Byte) (a : Display × Bool) :
    drawRows wrap x₀ y rows a = plotAll wrap (spritePoints x₀ y rows) a := by
  induction rows generalizing y a with
  | nil => rfl
  | cons row rows ih =>
    rw [drawRows, ih, drawColumns_eq_plotAll, spritePoints]
    exact List.foldl_append.symm

theorem mem_rowPoints {row : Byte} {x₀ y : Nat} {p : Nat × Nat} :
    p ∈ rowPoints row x₀ y spriteColumns ↔ ∃ c, c < 8 ∧ row.getLsbD (7 - c) = true ∧ p = (x₀ + c, y) := by
  have hc (c : Nat) : c ∈ spriteColumns ↔ c < 8 := by
    rw [show spriteColumns = List.range 8 from rfl, List.mem_range]
  simp only [rowPoints, List.mem_map, List.mem_filter, hc, and_assoc, eq_comm]

theorem mem_spritePoints {x₀ y : Nat} {rows : List Byte} {p : Nat × Nat} :
    p ∈ spritePoints x₀ y rows ↔
      ∃ r c, r < rows.length ∧ c < 8 ∧ (rows.getD r 0).getLsbD (7 - c) = true ∧ p = (x₀ + c, y + r) := by
  induction rows generalizing y with
  | nil => simp [spritePoints]
  | cons row rows ih =>
    rw [spritePoints, List.mem_append, mem_rowPoints, ih]
    constructor
    · rintro (⟨c, hc, hbit, hp⟩ | ⟨r, c, hr, hc, hbit, hp⟩)
      · exact ⟨0, c, Nat.succ_pos _, hc, hbit, hp⟩
      · exact ⟨r + 1, c, Nat.succ_lt_succ hr, hc, hbit, by rw [hp]; congr 1; omega⟩
    · rintro ⟨r | r, c, hr, hc, hbit, hp⟩
      · exact .inl ⟨c, hc, hbit, hp⟩
      · exact .inr ⟨r, c, Nat.lt_of_succ_lt_succ hr, hc, hbit, by rw [hp]; congr 1; omega⟩

/-! ### No two points land on one pixel -/

theorem nodup_rowPoints (row : Byte) (x₀ y : Nat) : (rowPoints row x₀ y spriteColumns).Nodup := by
  refine List.Nodup.map (fun c d h => ?_) (List.Nodup.filter _ (by decide))
  simpa using h

theorem nodup_spritePoints (x₀ y : Nat) (rows : List Byte) : (spritePoints x₀ y rows).Nodup := by
  induction rows generalizing y with
  | nil => exact List.nodup_nil
  | cons row rows ih =>
    refine List.nodup_append.2 ⟨nodup_rowPoints row x₀ y, ih (y + 1), fun p hp q hq hpq => ?_⟩
    obtain ⟨c, _, _, rfl⟩ := mem_rowPoints.1 hp
    obtain ⟨r, d, _, _, _, rfl⟩ := mem_spritePoints.1 hq
    simp only [Prod.mk.injEq] at hpq
    omega

/-- Points of one window of 8 columns and 32 rows that land on one pixel are the same point. -/
theorem landing_injective {wrap : Bool} {x₀ y₀ c c' r r' : Nat} (hc : c < 8) (hc' : c' < 8) (hr : r < 32)
    (hr' : r' < 32) {z : Fin 64 × Fin 32} (h : landing wrap (x₀ + c) (y₀ + r) = some z)
    (h' : landing wrap (x₀ + c') (y₀ + r') = some z) : c = c' ∧ r = r' := by
  rcases (landing_eq_some ..).1 h with ⟨hw, hx, hy⟩ | ⟨hw, hx, hy⟩ <;>
    rcases (landing_eq_some ..).1 h' with ⟨hw', hx', hy'⟩ | ⟨hw', hx', hy'⟩
  · omega
  · simp [hw] at hw'
  · simp [hw] at hw'
  · omega

/-- No two of the points land on one pixel. -/
def LandApart (wrap : Bool) (points : List (Nat × Nat)) : Prop :=
  points.Pairwise fun p q => ∀ z, landing wrap p.1 p.2 = some z → landing wrap q.1 q.2 ≠ some z

theorem landApart_spritePoints (wrap : Bool) (x₀ y : Nat) {rows : List Byte} (h : rows.length ≤ 32) :
    LandApart wrap (spritePoints x₀ y rows) := by
  refine List.Pairwise.imp_of_mem (fun {p q} hp hq hne z hz hz' => hne ?_) (nodup_spritePoints x₀ y rows)
  obtain ⟨r, c, hr, hc, _, rfl⟩ := mem_spritePoints.1 hp
  obtain ⟨r', c', hr', hc', _, rfl⟩ := mem_spritePoints.1 hq
  obtain ⟨rfl, rfl⟩ := landing_injective hc hc' (by omega) (by omega) hz hz'
  rfl

/-! ### Plotting points that land apart -/

/-- Does one of the points land on the pixel? -/
def landsOn (wrap : Bool) (points : List (Nat × Nat)) (x : Fin 64) (y : Fin 32) : Bool :=
  points.any fun p => decide (landing wrap p.1 p.2 = some (x, y))

theorem landsOn_cons (wrap : Bool) (p : Nat × Nat) (points : List (Nat × Nat)) (x : Fin 64) (y : Fin 32) :
    landsOn wrap (p :: points) x y = (decide (landing wrap p.1 p.2 = some (x, y)) || landsOn wrap points x y) := rfl

/-- Where the first point lands no later point does. -/
theorem LandApart.landsOn_tail {wrap : Bool} {p : Nat × Nat} {points : List (Nat × Nat)}
    (h : LandApart wrap (p :: points)) {x : Fin 64} {y : Fin 32} (hp : landing wrap p.1 p.2 = some (x, y)) :
    landsOn wrap points x y = false := by
  refine List.any_eq_false.2 fun q hq => ?_
  simpa using (List.pairwise_cons.1 h).1 q hq _ hp

theorem pixel_plotAll {wrap : Bool} {points : List (Nat × Nat)} (h : LandApart wrap points) (a : Display × Bool)
    (x : Fin 64) (y : Fin 32) :
    (plotAll wrap points a).1.pixel x y = (a.1.pixel x y != landsOn wrap points x y) := by
  induction points generalizing a with
  | nil => simp [plotAll, landsOn]
  | cons p points ih =>
    change (plotAll wrap points (plot wrap p.1 p.2 a)).1.pixel x y = _
    rw [ih (List.pairwise_cons.1 h).2, plot_pixel, landsOn_cons]
    by_cases hp : landing wrap p.1 p.2 = some (x, y)
    · simp [hp, h.landsOn_tail hp]
    · simp [hp]

theorem collision_plotAll {wrap : Bool} {points : List (Nat × Nat)} (h : LandApart wrap points) (a : Display × Bool) :
    (plotAll wrap points a).2 = true ↔
      a.2 = true ∨ ∃ x y, landsOn wrap points x y = true ∧ a.1.pixel x y = true := by
  induction points generalizing a with
  | nil => simp [plotAll, landsOn]
  | cons p points ih =>
    change (plotAll wrap points (plot wrap p.1 p.2 a)).2 = true ↔ _
    have hlater (x : Fin 64) (y : Fin 32) :
        landsOn wrap points x y = true ∧ (plot wrap p.1 p.2 a).1.pixel x y = true ↔
        landsOn wrap points x y = true ∧ a.1.pixel x y = true := by
      refine and_congr_right fun hon => ?_
      rw [plot_pixel, if_neg fun hp => by simp [h.landsOn_tail hp] at hon]
    simp only [ih (List.pairwise_cons.1 h).2, plot_collision, hlater, landsOn_cons, Bool.or_eq_true, decide_eq_true_eq,
      or_and_right, exists_or, or_assoc]

/-! ### The sprite of DXYN -/

theorem State.spriteRows_of_bounds (s : State) {n : Nat} (h : n = 0 ∨ s.i.toNat + n - 1 ≤ 0xFFF) :
    s.spriteRows n = .ok (s.mem.readBytes s.cfg.fontBase s.i.toNat n) := by
  rcases s.spriteRows_cases n with ⟨rfl, hr⟩ | ⟨_, _, hr⟩ | ⟨hpos, hout, _⟩
  · exact hr
  · exact hr
  · rw [State.indexAddr] at hout; omega

/-- The points of the sprite of DXYN in memory at I. -/
def State.drawnPoints (s : State) (x y : Reg) (n : Nat) : List (Nat × Nat) :=
  spritePoints ((s.getV x).toNat % 64) ((s.getV y).toNat % 32) (s.mem.readBytes s.cfg.fontBase s.i.toNat n)

/-- The points land on exactly the pixels of the closed form. -/
theorem State.landsOn_drawnPoints (s : State) (x y : Reg) (n : Nat) (px : Fin 64) (py : Fin 32) :
    landsOn s.cfg.quirkSpriteWrap (s.drawnPoints x y n) px py = s.spriteCovers x y n px py := by
  rw [Bool.eq_iff_iff]
  simp only [landsOn, List.any_eq_true, State.drawnPoints, mem_spritePoints, decide_eq_true_eq, State.spriteCovers,
    List.mem_range, Bool.and_eq_true, Memory.length_readBytes]
  constructor
  · rintro ⟨p, ⟨r, c, hr, hc, hbit, rfl⟩, hl⟩
    rw [Memory.getD_readBytes _ _ _ _ _ _ hr] at hbit
    refine ⟨r, hr, c, hc, hbit, ?_⟩
    rcases (landing_eq_some ..).1 hl with ⟨hw, hx, hy⟩ | ⟨hw, hx, hy⟩ <;> rw [hw]
    · exact decide_eq_true ⟨hx, hy⟩
    · exact decide_eq_true ⟨hx, hy⟩
  · rintro ⟨r, hr, c, hc, hbit, hl⟩
    refine ⟨_, ⟨r, c, hr, hc, ?_, rfl⟩, (landing_eq_some ..).2 ?_⟩
    · rwa [Memory.getD_readBytes _ _ _ _ _ _ hr]
    · cases hw : s.cfg.quirkSpriteWrap <;> simpa [hw] using hl

/-- The display and the collision flag after DXYN. -/
def State.drawn (s : State) (x y : Reg) (n : Nat) : Display × Bool :=
  plotAll s.cfg.quirkSpriteWrap (s.drawnPoints x y n) (s.disp, false)

theorem exec_drwVxVyN_of_bounds {s : State} (x y : Reg) {n : Nat} (h : n = 0 ∨ s.i.toNat + n - 1 ≤ 0xFFF) :
    exec (.drwVxVyN x y n) s = .next (State.setFlag { s with
      pc := s.pc + 2, disp := (s.drawn x y n).1, drawFlag := true } (s.drawn x y n).2) := by
  show execDrwVxVyN x y n s = _
  refine perform_ok ?_
  rw [s.advancePC.spriteRows_of_bounds h]
  simp only [drawRows_eq_plotAll]
  rfl

variable {n : Nat}

theorem State.landApart_drawnPoints (s : State) (x y : Reg) (h : n ≤ 15) :
    LandApart s.cfg.quirkSpriteWrap (s.drawnPoints x y n) :=
  landApart_spritePoints _ _ _ (by rw [Memory.length_readBytes]; omega)

theorem State.pixel_drawn (s : State) (x y : Reg) (h : n ≤ 15) (px : Fin 64) (py : Fin 32) :
    (s.drawn x y n).1.pixel px py = (s.disp.pixel px py != s.spriteCovers x y n px py) := by
  rw [State.drawn, pixel_plotAll (s.landApart_drawnPoints x y h), State.landsOn_drawnPoints]

/-- A collision is a pixel that was set and is unset after the draw. -/
theorem State.collision_drawn (s : State) (x y : Reg) (h : n ≤ 15) : (s.drawn x y n).2 = true ↔
    ∃ px py, s.disp.pixel px py = true ∧ (s.drawn x y n).1.pixel px py = false := by
  rw [State.drawn, collision_plotAll (s.landApart_drawnPoints x y h), ← State.drawn]
  simp only [State.landsOn_drawnPoints, State.pixel_drawn s x y h, Bool.false_eq_true, false_or]
  refine exists_congr fun px => exists_congr fun py => ?_
  cases s.disp.pixel px py <;> simp

/-- Settles O38: the display and the flag of the plotted points. -/
theorem drawFlipsExactlyTheCoveredPixels : Obligations.DrawFlipsExactlyTheCoveredPixels := by
  intro x y n s hn hb
  refine ⟨_, exec_drwVxVyN_of_bounds x y hb, ?_, s.pixel_drawn x y hn, ?_⟩
  · simp only [State.getV_setFlag, if_true]; rfl
  · rw [State.getV_setFlag, if_pos rfl]
    exact if_congr (s.collision_drawn x y hn) rfl rfl

/-- Settles O39: reading the rows raises. -/
theorem drawOutOfBoundsIsFatal : Obligations.DrawOutOfBoundsIsFatal := by
  intro x y n s hn hout
  have hrows : s.advancePC.spriteRows n = .error (.raise (.outOfBounds (max s.i.toNat 0x1000))) := by
    rcases s.advancePC.spriteRows_cases n with ⟨h0, _⟩ | ⟨_, hb, _⟩ | ⟨_, _, hr⟩
    · omega
    · exact absurd hb (by rw [State.indexAddr, State.advancePC_i]; omega)
    · exact hr
  show execDrwVxVyN x y n s = _
  exact perform_raise (by rw [hrows])

/-- Settles O37: every pixel of the blank display is unset. -/
theorem clearUnsetsEveryPixel : Obligations.ClearUnsetsEveryPixel := fun _ => ⟨_, rfl, rfl, pixel_blankDisplay⟩

/-- What a sprite covers depends on its place, its bytes and the wrap quirk alone. -/
theorem State.spriteCovers_congr {s u : State} {x y x' y' : Reg} {n : Nat} (hcfg : u.cfg = s.cfg) (hi : u.i = s.i)
    (hx : u.getV x' = s.getV x) (hy : u.getV y' = s.getV y)
    (hbytes : ∀ k, k < n → u.byteAt (s.i.toNat + k) = s.byteAt (s.i.toNat + k)) (px : Fin 64) (py : Fin 32) :
    u.spriteCovers x' y' n px py = s.spriteCovers x y n px py := by
  rw [Bool.eq_iff_iff]
  simp only [State.spriteCovers, List.any_eq_true, List.mem_range, hcfg, hi, hx, hy]
  refine exists_congr fun r => and_congr_right fun hr => ?_
  rw [hbytes r hr]

/-- Settles O40: the second draw flips the pixels that the first flipped. -/
theorem drawingTwiceRestoresTheDisplay : Obligations.DrawingTwiceRestoresTheDisplay := by
  intro x y x' y' n s t u w hn hfirst hdisp hcfg hi hx hy hbytes hsecond hb
  obtain ⟨t', ht', _, hpix, _⟩ := drawFlipsExactlyTheCoveredPixels x y n s hn hb
  obtain ⟨w', hw', _, hpix', hflag⟩ := drawFlipsExactlyTheCoveredPixels x' y' n u hn (hi ▸ hb)
  cases hfirst.symm.trans ht'
  cases hsecond.symm.trans hw'
  have hcov := State.spriteCovers_congr hcfg hi hx hy hbytes
  have hback (px : Fin 64) (py : Fin 32) : w.disp.pixel px py = s.disp.pixel px py := by
    rw [hpix', hdisp, hpix, hcov, Bool.bne_assoc, bne_self_eq_false, Bool.bne_false]
  refine ⟨Display.ext_pixel hback, ?_⟩
  have hone {P : Prop} [Decidable P] : (if P then (1 : Byte) else 0) = 1 ↔ P := by split <;> simp [*]
  rw [hflag, hone]
  refine exists_congr fun px => exists_congr fun py => ?_
  rw [hback, hdisp, hpix]
  cases s.disp.pixel px py <;> simp

end Sys2Proof.Machine
end
